-- ==== Sys2Proof/Word.lean ====
section
/-! DEFINITION. The word types of the block and the plainest slicing of them (spec/00_scope.md R6, R7).
Every value is unsigned. Bits are numbered from 0 at the least significant bit. -/

namespace Sys2Proof

/-- A byte, the only unit of access to a buffer (R6, R23). -/
abbrev Byte := BitVec 8

/-- A 16-bit word: an RGB565 word, or a header width or height (R47, R49). -/
abbrev Word16 := BitVec 16

/-- The three channel bytes of one RGB pixel, in index order R, G, B (R46). -/
structure Rgb where
  r : Byte
  g : Byte
  b : Byte
  deriving DecidableEq, Repr

/-- The two luminance bytes of one pair: `l1` is the pixel with the lower index (R48). -/
structure GrayPair where
  l1 : Byte
  l2 : Byte
  deriving DecidableEq, Repr

end Sys2Proof
end

