-- ==== Sys2Proof/Config.lean ====
section
/-! DEFINITION. What the hardware fixes when it is built (spec/00_scope.md R5, spec/70_reset_and_hazards.md R116),
and the one source of free values. None of it is state. The port widths `DIM_W` = 16, `LEN_W` = 34, `CLEN_W` = 32,
`OP_W` = `FMT_W` = 2 and `STATUS_W` = 3 of R5 are the widths of the ports' types (Syntax, Machine/State);
`PIX_RGB_BYTES` = 3 and `PIX_GRAY_BYTES` = 1 are in the index formulas of the meanings; `WINDOW_LOG2` concerns the
external codec only. -/

namespace Sys2Proof.Config

/-- `HDR_BYTES`: length of the TOIF header (R5, R49). -/
abbrev hdrBytes : Nat := 12

/-- How many indices a buffer has: an index is at most 34 bits wide (R18). -/
abbrev indexSpace : Nat := 2 ^ 34

/-- `STRICT_TRAILING`: whether a blob with bytes after the declared payload is rejected. True for this hardware
(R5, R76; 92_eei_decisions.md D8; 90_conflicts.md C1). Log entry 11. -/
def strictTrailing : Bool := true

/-- `MAGIC_RGB`, the four characters `TOIf` as bytes (R50; general knowledge G1). Log entry 12. -/
abbrev magicRgb : List Byte := [0x54, 0x4F, 0x49, 0x66]

/-- `MAGIC_GRAY`, the four characters `TOIg` as bytes (R50; general knowledge G1). Log entry 12. -/
abbrev magicGray : List Byte := [0x54, 0x4F, 0x49, 0x67]

/-- FREE VALUE. The byte that `OUT` holds where a transaction cut by reset would have written: any value
(R115; 93_implementation_defined.md U6). The argument is the state's counter plus the index. Log entry 10. -/
opaque freeByte : Nat → Byte

end Sys2Proof.Config
end

