-- ==== Sys2Proof/Syntax.lean ====
section
/-! DEFINITION. The syntax: pixel formats, the operations as the rows of spec/opcode_table.json, and the command
as it stands on the command port. -/

namespace Sys2Proof

/-- A recognised pixel format (spec/30_encoding.md R43). -/
inductive PixFmt where
  /-- 24-bit RGB bitmap, RGB565 stream, magic `TOIf`. -/
  | rgb
  /-- 8-bit grayscale bitmap, nibble-pair stream, magic `TOIg`. -/
  | gray
  deriving DecidableEq, Repr

/-- One constructor per row of spec/opcode_table.json. Every constructor carries all three operands of the command
port, those its operation ignores too (10_state.md R14, R15), and the command-word bits its row leaves open, so that
a command and its instruction say the same. Counts are natural numbers (R8); `WellFormed` gives their ranges. -/
inductive Instr where
  /-- `cmd = 0000` (R60). -/
  | rgb565Enc (w h len : Nat)
  /-- `cmd = 0001` (R66). -/
  | grayPack (w h len : Nat)
  /-- `cmd = 001f` (R96): `PACK` with an unrecognised format tag; `f` is `fmt[0]`. -/
  | packUnsupported (f w h len : Nat)
  /-- `cmd = 0100` (R84). -/
  | rgb565Dec (w h len : Nat)
  /-- `cmd = 0101` (R90). -/
  | grayUnpack (w h len : Nat)
  /-- `cmd = 011f` (R52): reserved; `f` is `fmt[0]`. -/
  | reservedUnpackFmt (f w h len : Nat)
  /-- `cmd = 10xx` (R78): `x` is the ignored `fmt`. -/
  | toifHdr (x w h len : Nat)
  /-- `cmd = 11xx` (R52): reserved; `x` is `fmt`. -/
  | reservedOp3 (x w h len : Nat)
  deriving DecidableEq, Repr

/-- The command port: the 4-bit command word and the three operands beside it (10_state.md R14; 30_encoding.md R41,
R58). -/
structure Command where
  /-- `{op[1:0], fmt[1:0]}` -/
  cmd : BitVec 4
  w   : Word16
  h   : Word16
  len : BitVec 34
  deriving DecidableEq, Repr

/-- Why numbers are not a command: each names the port field they do not fit (R14, R41; 92_eei_decisions.md D7). -/
inductive DecodeReject where
  /-- The command word is wider than 4 bits. -/
  | cmdTooWide
  /-- `w` is wider than 16 bits. -/
  | widthTooWide
  /-- `h` is wider than 16 bits. -/
  | heightTooWide
  /-- `len` is wider than 34 bits. -/
  | lenTooWide
  deriving DecidableEq, Repr

end Sys2Proof
end

