-- ==== Sys2Proof/WellFormed.lean ====
section
/-! DEFINITION. The ranges of an instruction's fields: those of the command port (spec/10_state.md R14) and of the
open bits of its row (spec/30_encoding.md R44). -/

namespace Sys2Proof

/-- `w` and `h` are 16 bits wide (R14). -/
def fitsDim (v : Nat) : Bool := decide (v < 2 ^ 16)

/-- `len` is 34 bits wide (R14). -/
def fitsLen (v : Nat) : Bool := decide (v < 2 ^ 34)

/-- The three operands fit their port fields (R14). -/
def fitsPort (w h len : Nat) : Bool := fitsDim w && fitsDim h && fitsLen len

/-- Every field of the instruction fits the bits the encoding gives it (R14, R41, R44). -/
def Instr.wf : Instr → Bool
  | .rgb565Enc w h len => fitsPort w h len
  | .grayPack w h len => fitsPort w h len
  | .packUnsupported f w h len => decide (f < 2) && fitsPort w h len
  | .rgb565Dec w h len => fitsPort w h len
  | .grayUnpack w h len => fitsPort w h len
  | .reservedUnpackFmt f w h len => decide (f < 2) && fitsPort w h len
  | .toifHdr x w h len => decide (x < 4) && fitsPort w h len
  | .reservedOp3 x w h len => decide (x < 4) && fitsPort w h len

end Sys2Proof
end

