-- ==== Sys2Proof/Decode.lean ====
section
/-! DEFINITION. Decoding a command into an instruction (spec/30_encoding.md R41 to R44), the encoder written from the
bit patterns of spec/opcode_table.json, the table itself, and the two pseudo-operations (R57). -/

namespace Sys2Proof

/-- `op[1:0]`, bits 3:2 of the command word (R41). -/
def opField (cmd : BitVec 4) : BitVec 2 := cmd.extractLsb' 2 2

/-- `fmt[1:0]`, bits 1:0 of the command word (R41). -/
def fmtField (cmd : BitVec 4) : BitVec 2 := cmd.extractLsb' 0 2

/-- The format a `fmt` tag names, if it is a recognised one (R43). -/
def fmtOfTag (t : BitVec 2) : Option PixFmt :=
  if t = 0b00#2 then some .rgb else if t = 0b01#2 then some .gray else none

/-- The dispatch of R44: the operation select of R42, then the format tag of R43. Total over all commands. -/
def decode (c : Command) : Instr :=
  let w := c.w.toNat
  let h := c.h.toNat
  let len := c.len.toNat
  let tag := fmtField c.cmd
  if opField c.cmd = 0b00#2 then
    match fmtOfTag tag with
    | some .rgb => .rgb565Enc w h len
    | some .gray => .grayPack w h len
    | none => .packUnsupported (tag.toNat % 2) w h len
  else if opField c.cmd = 0b01#2 then
    match fmtOfTag tag with
    | some .rgb => .rgb565Dec w h len
    | some .gray => .grayUnpack w h len
    | none => .reservedUnpackFmt (tag.toNat % 2) w h len
  else if opField c.cmd = 0b10#2 then
    .toifHdr tag.toNat w h len
  else
    .reservedOp3 tag.toNat w h len

/-- Presenting plain numbers on the command port. A number that does not fit its field cannot be presented
(R14; 92_eei_decisions.md D7) and is rejected by the field's name. -/
def Command.ofNats (cmd w h len : Nat) : Except DecodeReject Command :=
  if 2 ^ 4 ≤ cmd then .error .cmdTooWide
  else if 2 ^ 16 ≤ w then .error .widthTooWide
  else if 2 ^ 16 ≤ h then .error .heightTooWide
  else if 2 ^ 34 ≤ len then .error .lenTooWide
  else .ok ⟨BitVec.ofNat 4 cmd, BitVec.ofNat 16 w, BitVec.ofNat 16 h, BitVec.ofNat 34 len⟩

/-- Decoding plain numbers, total, rejecting by name. -/
def decodeNats (cmd w h len : Nat) : Except DecodeReject Instr :=
  match Command.ofNats cmd w h len with
  | .ok c => .ok (decode c)
  | .error e => .error e

/-- The instruction of an opcode-table word: the word is the 4-bit command word in the low bits, the operands beside
it on the port are zero (R41, R58). Higher bits of the word belong to no command (log entry 3). -/
def decodeTableWord (_nbits w : Nat) : Option Instr :=
  match decodeNats w 0 0 0 with
  | .ok i => some i
  | .error _ => none

/-- The command word of an instruction, written from the `encoding` column of spec/opcode_table.json. -/
def encodeWord : Instr → BitVec 4
  | .rgb565Enc _ _ _ => 0b0000#4
  | .grayPack _ _ _ => 0b0001#4
  | .packUnsupported f _ _ _ => 0b001#3 ++ BitVec.ofNat 1 f
  | .rgb565Dec _ _ _ => 0b0100#4
  | .grayUnpack _ _ _ => 0b0101#4
  | .reservedUnpackFmt f _ _ _ => 0b011#3 ++ BitVec.ofNat 1 f
  | .toifHdr x _ _ _ => 0b10#2 ++ BitVec.ofNat 2 x
  | .reservedOp3 x _ _ _ => 0b11#2 ++ BitVec.ofNat 2 x

/-- The `w` operand of an instruction (R14). -/
def Instr.width : Instr → Nat
  | .rgb565Enc w _ _ => w
  | .grayPack w _ _ => w
  | .packUnsupported _ w _ _ => w
  | .rgb565Dec w _ _ => w
  | .grayUnpack w _ _ => w
  | .reservedUnpackFmt _ w _ _ => w
  | .toifHdr _ w _ _ => w
  | .reservedOp3 _ w _ _ => w

/-- The `h` operand of an instruction (R14). -/
def Instr.height : Instr → Nat
  | .rgb565Enc _ h _ => h
  | .grayPack _ h _ => h
  | .packUnsupported _ _ h _ => h
  | .rgb565Dec _ h _ => h
  | .grayUnpack _ h _ => h
  | .reservedUnpackFmt _ _ h _ => h
  | .toifHdr _ _ h _ => h
  | .reservedOp3 _ _ h _ => h

/-- The `len` operand of an instruction (R14). -/
def Instr.count : Instr → Nat
  | .rgb565Enc _ _ n => n
  | .grayPack _ _ n => n
  | .packUnsupported _ _ _ n => n
  | .rgb565Dec _ _ n => n
  | .grayUnpack _ _ n => n
  | .reservedUnpackFmt _ _ _ n => n
  | .toifHdr _ _ _ n => n
  | .reservedOp3 _ _ _ n => n

/-- The full command `(cmd, w, h, len)` of an instruction (R58). -/
def encode (i : Instr) : Command :=
  ⟨encodeWord i, BitVec.ofNat 16 i.width, BitVec.ofNat 16 i.height, BitVec.ofNat 34 i.count⟩

/-- A row of spec/opcode_table.json: a word belongs to the row when `word & bitMask = pattern`. -/
structure OpcodeRow where
  mnemonic : String
  pattern  : BitVec 4
  bitMask  : BitVec 4
  deriving DecidableEq, Repr

/-- spec/opcode_table.json, row by row. -/
def opcodeRows : List OpcodeRow :=
  [ ⟨"RGB565_ENC", 0x0, 0xF⟩, ⟨"GRAY_PACK", 0x1, 0xF⟩, ⟨"PACK_UNSUPPORTED", 0x2, 0xE⟩, ⟨"RGB565_DEC", 0x4, 0xF⟩,
    ⟨"GRAY_UNPACK", 0x5, 0xF⟩, ⟨"RESERVED_UNPACK_FMT", 0x6, 0xE⟩, ⟨"TOIF_HDR", 0x8, 0xC⟩,
    ⟨"RESERVED_OP3", 0xC, 0xC⟩ ]

/-- Does the row hold this command word? -/
def OpcodeRow.holds (r : OpcodeRow) (cmd : BitVec 4) : Bool := cmd &&& r.bitMask == r.pattern

/-- The mnemonic of an instruction, as spec/opcode_table.json spells it. -/
def Instr.mnemonic : Instr → String
  | .rgb565Enc _ _ _ => "RGB565_ENC"
  | .grayPack _ _ _ => "GRAY_PACK"
  | .packUnsupported _ _ _ _ => "PACK_UNSUPPORTED"
  | .rgb565Dec _ _ _ => "RGB565_DEC"
  | .grayUnpack _ _ _ => "GRAY_UNPACK"
  | .reservedUnpackFmt _ _ _ _ => "RESERVED_UNPACK_FMT"
  | .toifHdr _ _ _ _ => "TOIF_HDR"
  | .reservedOp3 _ _ _ _ => "RESERVED_OP3"

/-- The pseudo-operation `PACK fmt, w, h`: the word `{00, fmt}`, `len` omitted and so 0 (R56, R57). -/
def packCommand (tag : BitVec 2) (w h : Word16) : Command := ⟨0b00#2 ++ tag, w, h, 0⟩

/-- The pseudo-operation `UNPACK fmt, w, h, len`: the word `{01, fmt}` for a recognised format, and not writable for
any other tag (R57). -/
def unpackCommand (tag : BitVec 2) (w h : Word16) (len : BitVec 34) : Option Command :=
  match fmtOfTag tag with
  | some _ => some ⟨0b01#2 ++ tag, w, h, len⟩
  | none => none

end Sys2Proof
end

