-- ==== Sys2Proof/Machine/State.lean ====
section
/-! DEFINITION. The machine's state: the two ports, the two buffers, the reset input (spec/10_state.md), the reasons a
step can stop, and the state after reset. -/

namespace Sys2Proof.Machine

/-- A buffer: its bytes by index, indices strictly rising. An index that is not listed has no value: in `IN` the host
has not supplied that byte (R120), in `OUT` it is whatever the host left there (R104). Log entries 4 and 5. -/
abbrev Memory := List Host.Cell

/-- The response port (10_state.md R16). -/
structure Response where
  /-- 0 `OK`, or the code of the error that ended the transaction (30_encoding.md R45). -/
  status : BitVec 3
  /-- `out_len`: number of bytes written to `OUT`, indices `0 .. out_len - 1`. -/
  outLen : BitVec 34
  /-- `r_fmt`: `TOIF_HDR` only, the format tag derived from the magic. -/
  rFmt   : BitVec 2
  /-- `r_w`: `TOIF_HDR` only. -/
  rW     : Word16
  /-- `r_h`: `TOIF_HDR` only. -/
  rH     : Word16
  /-- `r_clen`: `TOIF_HDR` only. -/
  rClen  : BitVec 32
  deriving DecidableEq, Repr

/-- What the reset input does during the coming step (70_reset_and_hazards.md R113 to R115). Log entry 9. -/
inductive ResetLine where
  /-- Reset is not asserted: the block works. -/
  | released
  /-- Reset is asserted: no command is accepted, no response delivered (R113). -/
  | asserted
  /-- Reset is asserted while the transaction of the coming step is in progress (R115). -/
  | cutsIn
  deriving DecidableEq, Repr

/-- The obligations of R119 a host can break while a transaction runs (93_implementation_defined.md U4). Log entry 8. -/
inductive HostBreach where
  /-- The host changes `IN` between the command and the response. -/
  | changesIn
  /-- The host reads `OUT` before the response. -/
  | readsOut
  /-- The host writes `OUT` before the response. -/
  | writesOut
  /-- `OUT` overlaps `IN`. -/
  | buffersOverlap
  /-- The host presents a second command before the response to the first. -/
  | secondCommand
  deriving DecidableEq, Repr

/-- The machine between two transactions (log entry 1). There are no registers, no program counter and no flags (R11,
R12, R17). -/
structure State where
  /-- The reset input (R113). -/
  resetLine  : ResetLine
  /-- The command the host presents and the block has not accepted yet (R13, R14). Log entry 2. -/
  command    : Option Command
  /-- `IN` of the coming transaction (R18). -/
  inBuf      : Memory
  /-- `OUT` (R18). -/
  outBuf     : Memory
  /-- How many bytes of room `OUT` has (R121). Log entry 6. -/
  outRoom    : Nat
  /-- The response port: the last delivered response, none after reset (R16, R22). Log entry 14. -/
  response   : Option Response
  /-- The obligation the host breaks during the coming transaction, if any (R119). -/
  hostBreach : Option HostBreach
  /-- The model's own counter of free bytes (log entry 10); no rule of the spec reads it. -/
  freeCtr    : Nat
  deriving DecidableEq, Repr

/-- Why the machine stops with a fault. -/
inductive Fault where
  /-- Raised by an access to a buffer at an index of 2^34 or more, which does not exist (R18). No instruction the
  decoder gives forms one. Safe: the model stops. Log entry 7. -/
  | indexOutsideSpace
  deriving DecidableEq, Repr

/-- Why a step gives no meaning. Each is one of the cases for which the spec itself says that a model refuses. -/
inductive Refusal where
  /-- Raised by no meaning; an arm of `exec` uses it for an instruction that has none yet. Safe: the model stops. -/
  | notModelled (mnemonic : String)
  /-- Raised by RESERVED_UNPACK_FMT and RESERVED_OP3: a reserved command word (R52, U1). Safe: the model stops. -/
  | reservedCommand
  /-- Raised by the operations that read `IN`, at a byte the host did not supply (R120, U3). Safe: the model stops. -/
  | shortInput
  /-- Raised by the operations that write `OUT`, at an index beyond its room (R121, U5). Safe: the model stops. -/
  | outTooSmall
  /-- Raised by the step that accepts a command while the host breaks an obligation of R119 (U4). Safe: the model
  stops. -/
  | hostInterferes (b : HostBreach)
  deriving DecidableEq, Repr

/-- The machine after reset: idle, no response on the port (R21, R22, R114). The host's side (no command presented,
nothing supplied in `IN`, nothing known of `OUT`, room for the whole index space, no breach) is DESIGN CHOICE: log
entries 2, 4, 5, 6, 8 and 10. -/
def State.reset : State :=
  { resetLine  := .released
    command    := none
    inBuf      := []
    outBuf     := []
    outRoom    := 2 ^ 34
    response   := none
    hostBreach := none
    freeCtr    := 0 }

end Sys2Proof.Machine
end

