-- ==== Sys2Proof/Machine/Operands.lean ====
section
/-! DEFINITION. The operand forms: assembly of values from bytes (spec/30_encoding.md R51), the lane functions of the
four pack and unpack units (R59, R65, R83, R89), and the magic (R72). -/

namespace Sys2Proof.Machine

/-- `be16(a, b) = (a << 8) | b`: the first byte is the high byte (R9, R31). -/
def be16 (a b : Byte) : Word16 := (a.setWidth 16 <<< 8) ||| b.setWidth 16

/-- `le16(a, b) = a | (b << 8)`: the first byte is the low byte (R9, R30). -/
def le16 (a b : Byte) : Word16 := a.setWidth 16 ||| (b.setWidth 16 <<< 8)

/-- `le32(a, b, c, d) = a | (b << 8) | (c << 16) | (d << 24)`: the first byte is the lowest (R9, R30). -/
def le32 (a b c d : Byte) : BitVec 32 :=
  a.setWidth 32 ||| (b.setWidth 32 <<< 8) ||| (c.setWidth 32 <<< 16) ||| (d.setWidth 32 <<< 24)

/-- `v[15:8]` (R51). -/
def hiByte (v : Word16) : Byte := (v >>> 8).setWidth 8

/-- `v[7:0]` (R51). -/
def loByte (v : Word16) : Byte := v.setWidth 8

/-- `rgb565_pack(R, G, B) = ((R >> 3) << 11) | ((G >> 2) << 5) | (B >> 3)` (R59). -/
def rgb565Pack (p : Rgb) : Word16 :=
  ((p.r >>> 3).setWidth 16 <<< 11) ||| ((p.g >>> 2).setWidth 16 <<< 5) ||| (p.b >>> 3).setWidth 16

/-- `rgb565_unpack(v)`: `(v >> 11) << 3`, `((v >> 5) & 0x3F) << 2`, `(v & 0x1F) << 3`, 8 bits each (R83). -/
def rgb565Unpack (v : Word16) : Rgb :=
  { r := ((v >>> 11) <<< 3).setWidth 8
    g := (((v >>> 5) &&& 0x3F#16) <<< 2).setWidth 8
    b := ((v &&& 0x1F#16) <<< 3).setWidth 8 }

/-- `gray_pack(L1, L2) = (L1 & 0xF0) | (L2 >> 4)` (R65). -/
def grayPackPair (p : GrayPair) : Byte := (p.l1 &&& 0xF0#8) ||| (p.l2 >>> 4)

/-- `gray_unpack(b) = (b & 0xF0, (b & 0x0F) << 4)` (R89). -/
def grayUnpackByte (b : Byte) : GrayPair := { l1 := b &&& 0xF0#8, l2 := (b &&& 0x0F#8) <<< 4 }

/-- The tag code of a format (R43). -/
def fmtCode : PixFmt → BitVec 2
  | .rgb => 0b00#2
  | .gray => 0b01#2

/-- `magic_fmt(b0, b1, b2, b3)`: all four bytes compared, exactly (R50, R72). -/
def magicFmt (b0 b1 b2 b3 : Byte) : Option PixFmt :=
  if [b0, b1, b2, b3] = Config.magicRgb then some .rgb
  else if [b0, b1, b2, b3] = Config.magicGray then some .gray
  else none

end Sys2Proof.Machine
end

