-- ==== Sys2Proof/Machine/Flags.lean ====
section
/-! DEFINITION. The block has no flags (spec/10_state.md R17). What takes their place is the status an operation
reports: the six errors and their codes (spec/60_exceptions.md R95, spec/30_encoding.md R45), the response of an error
and of a normal end (R104, R16), and the checks that decide them (R67, R79). -/

namespace Sys2Proof.Machine

/-- The six typed errors (R95). -/
inductive BlockError where
  | unsupportedFormat
  | invalidDimensions
  | badMagic
  | lengthMismatch
  /-- The external inflater's: this block never raises it (R100). -/
  | decompression
  | sizeMismatch
  deriving DecidableEq, Repr

/-- `status` code of an error (R45). -/
def BlockError.code : BlockError → BitVec 3
  | .unsupportedFormat => 1
  | .invalidDimensions => 2
  | .badMagic => 3
  | .lengthMismatch => 4
  | .decompression => 5
  | .sizeMismatch => 6

/-- The response of an error: its code, every other field 0 (R104, R16). -/
def errorResponse (e : BlockError) : Response :=
  { status := e.code, outLen := 0, rFmt := 0, rW := 0, rH := 0, rClen := 0 }

/-- The response `done(n)` of a pack or unpack operation: `OK`, `out_len = n`, the header fields 0 (R9, R16). -/
def okResponse (n : Nat) : Response :=
  { status := 0, outLen := BitVec.ofNat 34 n, rFmt := 0, rW := 0, rH := 0, rClen := 0 }

/-- The response of an accepted header (R77). -/
def headerResponse (f : PixFmt) (w h : Word16) (clen : BitVec 32) : Response :=
  { status := 0, outLen := 0, rFmt := fmtCode f, rW := w, rH := h, rClen := clen }

/-- `w[0] == 1`: the width check of `GRAY_PACK` (R67, R97). -/
def oddWidth (w : Nat) : Bool := w % 2 == 1

/-- `size_ok(fmt, w, h, n)`, without a division (R79). -/
def sizeOk : PixFmt → Nat → Nat → Nat → Bool
  | .rgb, w, h, n => n == 2 * (w * h)
  | .gray, w, h, n => 2 * n == w * h

/-- The length check of `TOIF_HDR`: does it reject `avail` bytes where `clen` are declared (R76)? -/
def lengthRejected (strict : Bool) (avail clen : Nat) : Bool :=
  decide (avail < clen) || (decide (clen < avail) && strict)

end Sys2Proof.Machine
end

