-- ==== Sys2Proof/Machine/Ops.lean ====
section
/-! DEFINITION. The shared operations: reading and writing a buffer, ending a transaction with an error or normally,
the loop of the pack and unpack operations, accepting a command, and reset. -/

namespace Sys2Proof.Machine

/-! ### Buffers -/

/-- The form of a buffer: indices strictly rising and inside the index space (R18, R23). -/
abbrev Memory.wf (m : Memory) : Prop :=
  m.Pairwise (fun x y => x.1 < y.1) ∧ ∀ c ∈ m, c.1 < Config.indexSpace

/-- The byte at index `i`, if the buffer lists it. -/
def Memory.read : Memory → Nat → Option Byte
  | [], _ => none
  | (a, b) :: m, i => if i = a then some b else Memory.read m i

/-- Store byte `v` at index `i`, keeping the indices rising. -/
def Memory.write : Memory → Nat → Byte → Memory
  | [], i, v => [(i, v)]
  | (a, b) :: m, i, v =>
    if i < a then (i, v) :: (a, b) :: m
    else if i = a then (i, v) :: m
    else (a, b) :: Memory.write m i v

/-- The buffer that holds these bytes from index `i` on. -/
def Memory.ofBytes (i : Nat) : List Byte → Memory
  | [] => []
  | b :: bs => (i, b) :: Memory.ofBytes (i + 1) bs

/-- Why an operation stops in the middle: it has had no effect then. -/
inductive Stop where
  | fault (f : Fault)
  | refused (r : Refusal)
  deriving DecidableEq, Repr

/-- `IN[i]` (R9, R23): one byte, no side effect (R35). A byte the host did not supply is refused (R120, U3). -/
def State.readIn (s : State) (i : Nat) : Except Stop Byte :=
  if i < Config.indexSpace then
    match s.inBuf.read i with
    | some b => .ok b
    | none => .error (.refused .shortInput)
  else .error (.fault .indexOutsideSpace)

/-- `OUT[i] <- v` (R9, R23): one byte stored and nothing else (R35). No room is refused (R121, U5). -/
def State.writeOut (s : State) (i : Nat) (v : Byte) : Except Stop State :=
  if i < Config.indexSpace then
    if i < s.outRoom then .ok { s with outBuf := s.outBuf.write i v }
    else .error (.refused .outTooSmall)
  else .error (.fault .indexOutsideSpace)

/-- `MemRead(addr, n)`: the `n`-byte little-endian value at `IN` offset `addr` (R9). -/
def State.memRead (s : State) (addr : Nat) : Nat → Except Stop Nat
  | 0 => .ok 0
  | n + 1 => do
    let b ← s.readIn addr
    let rest ← s.memRead (addr + 1) n
    .ok (b.toNat + 2 ^ 8 * rest)

/-- `MemWrite(addr, n, v)`: `OUT[addr + i] <- (v >> 8i)[7:0]` for `i` in `0 .. n-1` (R9). -/
def State.memWrite (s : State) (addr : Nat) : Nat → Nat → Except Stop State
  | 0, _ => .ok s
  | n + 1, v => do
    let t ← s.writeOut addr (BitVec.ofNat 8 v)
    t.memWrite (addr + 1) n (v / 2 ^ 8)

/-- Does the host supply `IN[0 .. n-1]` (R120)? -/
def State.supplies (s : State) (n : Nat) : Bool := (List.range n).all fun i => (s.inBuf.read i).isSome

/-! ### The end of a transaction -/

/-- ERROR ENTRY, `raise <Error>` (R104): the response carries the code and zeros; no byte of `OUT` is written, nothing
is saved, no mode changes, control goes nowhere. There is no return from it: the block is idle and takes the next
command (R105). -/
def State.raise (s : State) (e : BlockError) : State := { s with response := some (errorResponse e) }

/-- `done(n)` (R9). -/
def State.done (s : State) (n : Nat) : State := { s with response := some (okResponse n) }

/-- `done(0)` of `TOIF_HDR` with its result fields (R77, R78). -/
def State.doneHeader (s : State) (f : PixFmt) (w h : Word16) (clen : BitVec 32) : State :=
  { s with response := some (headerResponse f w h clen) }

/-- The outcome of an operation's body. -/
def finish : Except Stop State → Host.Outcome State Fault Refusal
  | .ok t => .next t
  | .error (.fault f) => .fault f
  | .error (.refused r) => .refused r

/-- `for k in 0 .. n-1`: `body` at `k`, `k+1`, and so on, `n` times, in ascending order (R9, R34, R103). -/
def forLanes (body : Nat → State → Except Stop State) : Nat → Nat → State → Except Stop State
  | _, 0, s => .ok s
  | k, n + 1, s => do
    let t ← body k s
    forLanes body (k + 1) n t

/-! ### Accepting a command, and reset -/

/-- Accepting the presented command: the port is sampled once (R40) and the command is not taken again (R106). -/
def State.accept (s : State) : State := { s with command := none }

/-- A step while reset is asserted: no command is accepted, the response port shows no response, nothing else changes
(R113, R114, R22). -/
def State.underReset (s : State) : State := { s with resetLine := .asserted, response := none }

/-- `m` with a free byte at each index `0 .. n-1` (R115, U6). -/
def Memory.fillFree (m : Memory) (ctr : Nat) : Nat → Memory
  | 0 => m
  | n + 1 => (m.fillFree ctr n).write n (Config.freeByte (ctr + n))

/-- How many bytes of `OUT` the last response says were written (R16). -/
def State.written (s : State) : Nat :=
  match s.response with
  | some r => r.outLen.toNat
  | none => 0

/-- A transaction abandoned by reset (R115): the command is gone, no response is delivered, and the `OUT` indices the
operation would have written hold any values. `o` is what the operation would have done. A transaction with no meaning
has none here either. -/
def State.abandon (s : State) (o : Host.Outcome State Fault Refusal) : Host.Outcome State Fault Refusal :=
  match o with
  | .next t =>
    .next { s.accept.underReset with
      outBuf  := s.outBuf.fillFree s.freeCtr t.written
      freeCtr := s.freeCtr + t.written }
  | .fault f => .fault f
  | .refused r => .refused r

/-- Accept the command `c` and run it with `run`; refused while the host breaks an obligation of R119 (U4). -/
def State.transact (run : Instr → State → Host.Outcome State Fault Refusal) (c : Command) (s : State) :
    Host.Outcome State Fault Refusal :=
  match s.hostBreach with
  | some b => .refused (.hostInterferes b)
  | none => run (decode c) s.accept

/-- One step, with `run` for the operations. Reset asserted: nothing is accepted (R113). No command: the block is idle
(R110). A command: one whole transaction (R13), abandoned where reset cuts in (R115). -/
def stepWith (run : Instr → State → Host.Outcome State Fault Refusal) (s : State) : Host.Outcome State Fault Refusal :=
  match s.resetLine, s.command with
  | .released, none => .next s
  | .released, some c => s.transact run c
  | .asserted, _ => .next s.underReset
  | .cutsIn, none => .next s.underReset
  | .cutsIn, some c => s.abandon (s.transact run c)

/-! ### The host's side -/

/-- The host presents a command with its `IN` buffer and the room of its `OUT` buffer (R13, R120, R121). -/
def State.present (s : State) (c : Command) (input : List Byte) (room : Nat) : State :=
  { s with command := some c, inBuf := Memory.ofBytes 0 input, outRoom := room }

/-- The host presents an opcode-table word, operands zero, to a working block (log entry 3). -/
def State.presentWord (s : State) (w : Nat) : State :=
  { s with
    resetLine  := .released
    hostBreach := none
    command    := match Command.ofNats w 0 0 0 with
      | .ok c => some c
      | .error _ => none }

end Sys2Proof.Machine
end

