-- ==== Sys2Proof/Machine/Header.lean ====
section
/-! DEFINITION. The `HDR` family: TOIF_HDR (spec/42_toif_header.md), and the reserved words of `op = 3`
(spec/30_encoding.md R52). -/

namespace Sys2Proof.Machine

/-- The header fields and their check, once the magic is good and 12 bytes are there (R75 to R77). -/
def headerFields (strict : Bool) (f : PixFmt) (blen : Nat) (s : State) : Except Stop State := do
  let b4 ← s.readIn 4
  let b5 ← s.readIn 5
  let b6 ← s.readIn 6
  let b7 ← s.readIn 7
  let b8 ← s.readIn 8
  let b9 ← s.readIn 9
  let b10 ← s.readIn 10
  let b11 ← s.readIn 11
  let clen := le32 b8 b9 b10 b11
  .ok (if lengthRejected strict (blen - Config.hdrBytes) clen.toNat then s.raise .lengthMismatch
    else s.doneHeader f (le16 b4 b5) (le16 b6 b7) clen)

/-- The checks of TOIF_HDR in the order of R78: the magic (R72, R73), the header's length (R74), the fields. -/
def headerChecks (strict : Bool) (blen : Nat) (s : State) : Except Stop State :=
  if blen < 4 then .ok (s.raise .badMagic)
  else do
    let b0 ← s.readIn 0
    let b1 ← s.readIn 1
    let b2 ← s.readIn 2
    let b3 ← s.readIn 3
    match magicFmt b0 b1 b2 b3 with
    | none => .ok (s.raise .badMagic)
    | some f =>
      if blen < Config.hdrBytes then .ok (s.raise .lengthMismatch)
      else headerFields strict f blen s

/-- The operation with `STRICT_TRAILING` as an argument (R76, D8). The host must supply the `min(blen, 12)` bytes the
operation may read, on an error too (R71, R78, R120): log entry 13. -/
def toifHdr (strict : Bool) (blen : Nat) (s : State) : Host.Outcome State Fault Refusal :=
  if s.supplies (min blen Config.hdrBytes) then finish (headerChecks strict blen s)
  else .refused .shortInput

/-- TOIF_HDR (R71, R78); `len` is the blob length `blen`; `fmt`, `w` and `h` are ignored (R15). -/
def execToifHdr (_x _w _h blen : Nat) (s : State) : Host.Outcome State Fault Refusal :=
  toifHdr Config.strictTrailing blen s

/-- `op = 3`: reserved, "a model must refuse them" (R52, U1). -/
def execReservedOp3 (_x _w _h _len : Nat) (_s : State) : Host.Outcome State Fault Refusal :=
  .refused .reservedCommand

end Sys2Proof.Machine
end

