-- ==== Sys2Proof/Machine/Pack.lean ====
section
/-! DEFINITION. The `PACK` family: RGB565_ENC (spec/40_rgb565_encoder.md), GRAY_PACK (spec/41_gray_packer.md) and
PACK_UNSUPPORTED (spec/60_exceptions.md R96). -/

namespace Sys2Proof.Machine

/-- The body of RGB565_ENC's loop at pixel `k` (R60). -/
def rgb565EncLane (k : Nat) (s : State) : Except Stop State := do
  let r ← s.readIn (3 * k)
  let g ← s.readIn (3 * k + 1)
  let b ← s.readIn (3 * k + 2)
  let v := rgb565Pack ⟨r, g, b⟩
  let s1 ← s.writeOut (2 * k) (hiByte v)
  s1.writeOut (2 * k + 1) (loByte v)

/-- RGB565_ENC (R60, R61); `len` is ignored (R15). -/
def execRgb565Enc (w h _len : Nat) (s : State) : Host.Outcome State Fault Refusal :=
  finish (do
    let t ← forLanes rgb565EncLane 0 (w * h) s
    .ok (t.done (2 * (w * h))))

/-- The body of GRAY_PACK's loop at pair `j` (R66). -/
def grayPackLane (j : Nat) (s : State) : Except Stop State := do
  let l1 ← s.readIn (2 * j)
  let l2 ← s.readIn (2 * j + 1)
  s.writeOut j (grayPackPair ⟨l1, l2⟩)

/-- GRAY_PACK (R66, R67): the width check comes before any byte is read; `len` is ignored (R15). -/
def execGrayPack (w h _len : Nat) (s : State) : Host.Outcome State Fault Refusal :=
  if oddWidth w then .next (s.raise .invalidDimensions)
  else finish (do
    let t ← forLanes grayPackLane 0 (w * h / 2) s
    .ok (t.done (w * h / 2)))

/-- PACK with an unrecognised format tag (R44, R96): decided from the command word alone. -/
def execPackUnsupported (_f _w _h _len : Nat) (s : State) : Host.Outcome State Fault Refusal :=
  .next (s.raise .unsupportedFormat)

end Sys2Proof.Machine
end

