-- ==== Sys2Proof/Machine/Unpack.lean ====
section
/-! DEFINITION. The `UNPACK` family: RGB565_DEC (spec/43_rgb565_decoder.md), GRAY_UNPACK
(spec/44_gray_unpacker.md) and the reserved words of `UNPACK` (spec/30_encoding.md R52). -/

namespace Sys2Proof.Machine

/-- The body of RGB565_DEC's loop at pixel `k` (R84). -/
def rgb565DecLane (k : Nat) (s : State) : Except Stop State := do
  let hi ← s.readIn (2 * k)
  let lo ← s.readIn (2 * k + 1)
  let p := rgb565Unpack (be16 hi lo)
  let s1 ← s.writeOut (3 * k) p.r
  let s2 ← s1.writeOut (3 * k + 1) p.g
  s2.writeOut (3 * k + 2) p.b

/-- RGB565_DEC (R84, R85); `len` is the payload length `n`. The size check comes before any byte is read. -/
def execRgb565Dec (w h n : Nat) (s : State) : Host.Outcome State Fault Refusal :=
  if sizeOk .rgb w h n then finish (do
    let t ← forLanes rgb565DecLane 0 (w * h) s
    .ok (t.done (3 * (w * h))))
  else .next (s.raise .sizeMismatch)

/-- The body of GRAY_UNPACK's loop at byte `j` (R90). -/
def grayUnpackLane (j : Nat) (s : State) : Except Stop State := do
  let b ← s.readIn j
  let p := grayUnpackByte b
  let s1 ← s.writeOut (2 * j) p.l1
  s1.writeOut (2 * j + 1) p.l2

/-- GRAY_UNPACK (R90, R91); `len` is the payload length `n`. The size check comes before any byte is read; the parity
of `w` is not looked at. -/
def execGrayUnpack (w h n : Nat) (s : State) : Host.Outcome State Fault Refusal :=
  if sizeOk .gray w h n then finish (do
    let t ← forLanes grayUnpackLane 0 n s
    .ok (t.done (2 * n)))
  else .next (s.raise .sizeMismatch)

/-- `UNPACK` with an unrecognised format tag: reserved, "a model must refuse them" (R52, U1). -/
def execReservedUnpackFmt (_f _w _h _len : Nat) (_s : State) : Host.Outcome State Fault Refusal :=
  .refused .reservedCommand

end Sys2Proof.Machine
end

