-- ==== Sys2Proof/Machine/Dispatch.lean ====
section
/-! DEFINITION. The dispatch of an instruction to its meaning (spec/30_encoding.md R44). -/

namespace Sys2Proof.Machine

/-- One arm per row of spec/opcode_table.json. -/
def exec (i : Instr) (s : State) : Host.Outcome State Fault Refusal :=
  match i with
  | .rgb565Enc w h len => Sys2Proof.Machine.execRgb565Enc w h len s
  | .grayPack w h len => Sys2Proof.Machine.execGrayPack w h len s
  | .packUnsupported f w h len => Sys2Proof.Machine.execPackUnsupported f w h len s
  | .rgb565Dec w h len => Sys2Proof.Machine.execRgb565Dec w h len s
  | .grayUnpack w h len => Sys2Proof.Machine.execGrayUnpack w h len s
  | .reservedUnpackFmt f w h len => Sys2Proof.Machine.execReservedUnpackFmt f w h len s
  | .toifHdr x w h len => Sys2Proof.Machine.execToifHdr x w h len s
  | .reservedOp3 x w h len => Sys2Proof.Machine.execReservedOp3 x w h len s

end Sys2Proof.Machine
end

