-- ==== Sys2Proof/Machine/Step.lean ====
section
/-! DEFINITION. The step of the machine: one whole transaction, an idle step, or a step of reset. -/

namespace Sys2Proof.Machine

/-- One step (see `stepWith`). -/
def step (s : State) : Host.Outcome State Fault Refusal := stepWith exec s

/-- The host presents the opcode-table word `w` on the command port, where the step takes its command (log entry 3). -/
def State.withFetchWord (s : State) (_nbits w : Nat) : State := s.presentWord w

end Sys2Proof.Machine
end

