-- ==== Sys2Proof/Safety.lean ====
section
/-! DEFINITION. What a safe run is, in the terms the statements use: the legal shape of a response, the machine's
invariant, and a host that keeps its obligations (spec/70_reset_and_hazards.md R119 to R121). -/

namespace Sys2Proof.Machine

/-- `IN` holds every byte at indices `0 .. n-1` (R120). -/
abbrev State.hasInput (s : State) (n : Nat) : Prop := ∀ i < n, (s.inBuf.read i).isSome

/-- How many bytes of `IN` the operation may read (R25, R120); none where a check on the operands alone ends it. -/
def bytesNeeded : Instr → Nat
  | .rgb565Enc w h _ => 3 * (w * h)
  | .grayPack w h _ => if oddWidth w then 0 else w * h
  | .packUnsupported _ _ _ _ => 0
  | .rgb565Dec w h n => if sizeOk .rgb w h n then n else 0
  | .grayUnpack w h n => if sizeOk .gray w h n then n else 0
  | .reservedUnpackFmt _ _ _ _ => 0
  | .toifHdr _ _ _ blen => min blen 12
  | .reservedOp3 _ _ _ _ => 0

/-- How many bytes of room in `OUT` the operation needs (R25, R121); none where a check on the operands ends it. -/
def roomNeeded : Instr → Nat
  | .rgb565Enc w h _ => 2 * (w * h)
  | .grayPack w h _ => if oddWidth w then 0 else w * h / 2
  | .packUnsupported _ _ _ _ => 0
  | .rgb565Dec w h n => if sizeOk .rgb w h n then 3 * (w * h) else 0
  | .grayUnpack w h n => if sizeOk .gray w h n then w * h else 0
  | .reservedUnpackFmt _ _ _ _ => 0
  | .toifHdr _ _ _ _ => 0
  | .reservedOp3 _ _ _ _ => 0

/-- A command word a host must not issue (R52). -/
def Instr.isReserved : Instr → Bool
  | .rgb565Enc _ _ _ => false
  | .grayPack _ _ _ => false
  | .packUnsupported _ _ _ _ => false
  | .rgb565Dec _ _ _ => false
  | .grayUnpack _ _ _ => false
  | .reservedUnpackFmt _ _ _ _ => true
  | .toifHdr _ _ _ _ => false
  | .reservedOp3 _ _ _ _ => true

/-- The host keeps its obligations for the instruction `i`: no reserved word (R52), enough input (R120), enough room
(R121). -/
abbrev State.readyFor (s : State) (i : Instr) : Prop :=
  Instr.isReserved i = false ∧ s.hasInput (bytesNeeded i) ∧ roomNeeded i ≤ s.outRoom

/-- Every shape a response can have: an error's code is one of the five the block raises and all else is 0; otherwise
`status` is 0 and either the header fields or `out_len` are 0 (R16, R45, R53, R104). -/
abbrev Response.legal (r : Response) : Prop :=
  (r.status = 0 ∨ r.status = 1 ∨ r.status = 2 ∨ r.status = 3 ∨ r.status = 4 ∨ r.status = 6) ∧
  (r.status ≠ 0 → r.outLen = 0 ∧ r.rFmt = 0 ∧ r.rW = 0 ∧ r.rH = 0 ∧ r.rClen = 0) ∧
  (r.outLen ≠ 0 → r.rFmt = 0 ∧ r.rW = 0 ∧ r.rH = 0 ∧ r.rClen = 0) ∧
  (r.rFmt = 0 ∨ r.rFmt = 1)

/-- The response on the port, if there is one, is legal. -/
abbrev State.responseLegal (s : State) : Prop := ∀ r, s.response = some r → r.legal

/-- The machine's invariant: both buffers keep their form, the response port its shape. -/
structure State.Inv (s : State) : Prop where
  inWf  : s.inBuf.wf
  outWf : s.outBuf.wf
  resp  : s.responseLegal

/-- `t` ended a pack or unpack operation normally with `out_len = n`, exactly (R9, R16): no bit of the count is lost. -/
abbrev State.endsOk (t : State) (n : Nat) : Prop :=
  ∃ r, t.response = some r ∧ r.status = 0 ∧ r.outLen.toNat = n ∧ r.rFmt = 0 ∧ r.rW = 0 ∧ r.rH = 0 ∧ r.rClen = 0

/-- `s` with an error response and nothing else changed: the code, and zeros (R104). -/
def State.failedWith (s : State) (code : BitVec 3) : State :=
  { s with response := some { status := code, outLen := 0, rFmt := 0, rW := 0, rH := 0, rClen := 0 } }

/-- The frame of every operation: `t` is `s` but for `OUT` and the response port (R24, R35). -/
abbrev State.sameButOut (s t : State) : Prop := t = { s with outBuf := t.outBuf, response := t.response }

/-- `IN` starts with the bytes `b 0 .. b (n-1)`. -/
abbrev State.inputIs (s : State) (n : Nat) (b : Nat → Byte) : Prop := ∀ i < n, s.inBuf.read i = some (b i)

/-- The first four bytes are a known magic: `54 4F 49 66` or `54 4F 49 67` (R50, R72). -/
def goodMagic (b : Nat → Byte) : Bool := b 0 == 0x54 && b 1 == 0x4F && b 2 == 0x49 && (b 3 == 0x66 || b 3 == 0x67)

/-- The declared compressed length of a header: four bytes from offset 8, the lowest first (R30). -/
def declaredLength (b : Nat → Byte) : Nat :=
  (b 8).toNat + 2 ^ 8 * (b 9).toNat + 2 ^ 16 * (b 10).toNat + 2 ^ 24 * (b 11).toNat

/-- The response to a good header: every field from the header's bytes (R16, R75, R77). -/
def headerAnswer (b : Nat → Byte) : Response :=
  { status := 0
    outLen := 0
    rFmt   := if b 3 = 0x66 then 0 else 1
    rW     := BitVec.ofNat 16 ((b 4).toNat + 2 ^ 8 * (b 5).toNat)
    rH     := BitVec.ofNat 16 ((b 6).toNat + 2 ^ 8 * (b 7).toNat)
    rClen  := BitVec.ofNat 32 (declaredLength b) }

end Sys2Proof.Machine
end

