-- ==== Sys2Proof/Certificates/Slice0/Obligations.lean ====
section
/-! DEFINITION. The statements for the provers, in the order of OBLIGATIONS.json. -/

open Sys2Proof Sys2Proof.Machine

/-! ### Commands and their decoding (30_encoding.md) -/

/-- Words written out from R44 and R58 decode to the instructions they stand for. -/
def Obligations.SampleWordsDecode : Prop :=
  decode ⟨0b0000#4, 2, 2, 0⟩ = .rgb565Enc 2 2 0 ∧
  decode ⟨0b0001#4, 65535, 3, 7⟩ = .grayPack 65535 3 7 ∧
  decode ⟨0b0011#4, 3, 1, 0⟩ = .packUnsupported 1 3 1 0 ∧
  decode ⟨0b0100#4, 2, 2, 8⟩ = .rgb565Dec 2 2 8 ∧
  decode ⟨0b0101#4, 4, 2, 4⟩ = .grayUnpack 4 2 4 ∧
  decode ⟨0b0110#4, 1, 2, 3⟩ = .reservedUnpackFmt 0 1 2 3 ∧
  decode ⟨0b1001#4, 0, 0, 25⟩ = .toifHdr 1 0 0 25 ∧
  decode ⟨0b1111#4, 1, 2, 3⟩ = .reservedOp3 3 1 2 3

/-- R44: the dispatch table, complete over all 16 values of `cmd`, for all operands. -/
def Obligations.DispatchTableComplete : Prop :=
  ∀ (w h : Word16) (len : BitVec 34),
    decode ⟨0b0000#4, w, h, len⟩ = .rgb565Enc w.toNat h.toNat len.toNat ∧
    decode ⟨0b0001#4, w, h, len⟩ = .grayPack w.toNat h.toNat len.toNat ∧
    (∀ f < 2, decode ⟨0b0010#4 + BitVec.ofNat 4 f, w, h, len⟩ = .packUnsupported f w.toNat h.toNat len.toNat) ∧
    decode ⟨0b0100#4, w, h, len⟩ = .rgb565Dec w.toNat h.toNat len.toNat ∧
    decode ⟨0b0101#4, w, h, len⟩ = .grayUnpack w.toNat h.toNat len.toNat ∧
    (∀ f < 2, decode ⟨0b0110#4 + BitVec.ofNat 4 f, w, h, len⟩ = .reservedUnpackFmt f w.toNat h.toNat len.toNat) ∧
    (∀ x < 4, decode ⟨0b1000#4 + BitVec.ofNat 4 x, w, h, len⟩ = .toifHdr x w.toNat h.toNat len.toNat) ∧
    (∀ x < 4, decode ⟨0b1100#4 + BitVec.ofNat 4 x, w, h, len⟩ = .reservedOp3 x w.toNat h.toNat len.toNat)

/-- Decoding what was encoded gives every well-formed instruction back, with every operand. -/
def Obligations.DecodeOfEncode : Prop := ∀ i : Instr, i.wf = true → decode (encode i) = i

/-- Every command decodes to a well-formed instruction whose encoding is that command: no bit is dropped and no two
commands share a meaning. -/
def Obligations.EncodeOfDecode : Prop := ∀ c : Command, (decode c).wf = true ∧ encode (decode c) = c

/-- Every command word lies in exactly one row of the opcode table, and decodes to that row's operation. -/
def Obligations.OpcodeRowsPartitionWords : Prop :=
  ∀ (c : Command), ∃ r ∈ opcodeRows, r.holds c.cmd = true ∧ (∀ q ∈ opcodeRows, q.holds c.cmd = true → q = r) ∧
    (decode c).mnemonic = r.mnemonic

/-- Numbers that fit the port decode as the command they make; a number that fits no field is rejected by the field's
name. That such numbers are rejected, and the order of the names, is the model's choice (log entry 3). -/
def Obligations.NumbersDecodeOrAreRejected : Prop :=
  (∀ c : Command, decodeNats c.cmd.toNat c.w.toNat c.h.toNat c.len.toNat = .ok (decode c)) ∧
  (∀ cmd w h len, 2 ^ 4 ≤ cmd → decodeNats cmd w h len = .error .cmdTooWide) ∧
  (∀ cmd w h len, cmd < 2 ^ 4 → 2 ^ 16 ≤ w → decodeNats cmd w h len = .error .widthTooWide) ∧
  (∀ cmd w h len, cmd < 2 ^ 4 → w < 2 ^ 16 → 2 ^ 16 ≤ h → decodeNats cmd w h len = .error .heightTooWide) ∧
  (∀ cmd w h len, cmd < 2 ^ 4 → w < 2 ^ 16 → h < 2 ^ 16 → 2 ^ 34 ≤ len →
    decodeNats cmd w h len = .error .lenTooWide)

/-- R57: how the two pseudo-operations expand. -/
def Obligations.PseudoOperationsExpand : Prop :=
  ∀ (tag : BitVec 2) (w h : Word16) (len : BitVec 34),
    (tag = 0 → decode (packCommand tag w h) = .rgb565Enc w.toNat h.toNat 0 ∧
      ∃ c, unpackCommand tag w h len = some c ∧ decode c = .rgb565Dec w.toNat h.toNat len.toNat) ∧
    (tag = 1 → decode (packCommand tag w h) = .grayPack w.toNat h.toNat 0 ∧
      ∃ c, unpackCommand tag w h len = some c ∧ decode c = .grayUnpack w.toNat h.toNat len.toNat) ∧
    (tag ≠ 0 → tag ≠ 1 → (packCommand tag w h).cmd = 0b00#2 ++ tag ∧
      (∀ s, exec (decode (packCommand tag w h)) s = .next (s.failedWith 1)) ∧ unpackCommand tag w h len = none)

/-! ### Lane functions and operand assembly -/

/-- R59: the RGB565 word of a pixel, by its fields, by its formula, and by its two bytes. -/
def Obligations.Rgb565PackFormula : Prop :=
  ∀ p : Rgb,
    ((rgb565Pack p).extractLsb' 11 5 = p.r.extractLsb' 3 5 ∧ (rgb565Pack p).extractLsb' 5 6 = p.g.extractLsb' 2 6 ∧
      (rgb565Pack p).extractLsb' 0 5 = p.b.extractLsb' 3 5) ∧
    rgb565Pack p = ((p.r >>> 3).setWidth 16 <<< 11) ||| ((p.g >>> 2).setWidth 16 <<< 5) ||| (p.b >>> 3).setWidth 16 ∧
    hiByte (rgb565Pack p) = (p.r &&& 0xF8#8) ||| (p.g >>> 5) ∧
    loByte (rgb565Pack p) = ((p.g <<< 3) &&& 0xE0#8) ||| (p.b >>> 3)

/-- R83: the pixel of an RGB565 word: each field at the top of its byte with zeros below, by the formulas, and by the
two stream bytes. -/
def Obligations.Rgb565UnpackFormula : Prop :=
  (∀ v : Word16,
    (rgb565Unpack v).r.extractLsb' 3 5 = v.extractLsb' 11 5 ∧ (rgb565Unpack v).r.extractLsb' 0 3 = 0 ∧
    (rgb565Unpack v).g.extractLsb' 2 6 = v.extractLsb' 5 6 ∧ (rgb565Unpack v).g.extractLsb' 0 2 = 0 ∧
    (rgb565Unpack v).b.extractLsb' 3 5 = v.extractLsb' 0 5 ∧ (rgb565Unpack v).b.extractLsb' 0 3 = 0 ∧
    (rgb565Unpack v).r = ((v >>> 11) <<< 3).setWidth 8 ∧
    (rgb565Unpack v).g = (((v >>> 5) &&& 0x3F#16) <<< 2).setWidth 8 ∧
    (rgb565Unpack v).b = ((v &&& 0x1F#16) <<< 3).setWidth 8) ∧
  (∀ hi lo : Byte,
    rgb565Unpack (be16 hi lo) =
      ⟨hi &&& 0xF8#8, ((hi &&& 0x07#8) <<< 5) ||| ((lo &&& 0xE0#8) >>> 3), (lo &&& 0x1F#8) <<< 3⟩)

/-- R65: the packed byte of two luminance values, by its nibbles and by its formula. -/
def Obligations.GrayPackFormula : Prop :=
  ∀ p : GrayPair,
    (grayPackPair p).extractLsb' 4 4 = p.l1.extractLsb' 4 4 ∧ (grayPackPair p).extractLsb' 0 4 = p.l2.extractLsb' 4 4 ∧
    grayPackPair p = (p.l1 &&& 0xF0#8) ||| (p.l2 >>> 4)

/-- R89: the two luminance values of a packed byte: each nibble at the top of its byte with zeros below, and by the
formulas. -/
def Obligations.GrayUnpackFormula : Prop :=
  ∀ b : Byte,
    (grayUnpackByte b).l1.extractLsb' 4 4 = b.extractLsb' 4 4 ∧ (grayUnpackByte b).l1.extractLsb' 0 4 = 0 ∧
    (grayUnpackByte b).l2.extractLsb' 4 4 = b.extractLsb' 0 4 ∧ (grayUnpackByte b).l2.extractLsb' 0 4 = 0 ∧
    grayUnpackByte b = ⟨b &&& 0xF0#8, (b &&& 0x0F#8) <<< 4⟩

/-- The laws of the RGB565 lanes: expanding clears the low bits and nothing else, the loss is exactly those bits,
packing is monotone and onto, packing an expanded word gives it back, expanding is one-to-one. -/
def Obligations.Rgb565LaneLaws : Prop :=
  (∀ p, rgb565Unpack (rgb565Pack p) = ⟨p.r &&& 0xF8#8, p.g &&& 0xFC#8, p.b &&& 0xF8#8⟩) ∧
  (∀ p, (rgb565Unpack (rgb565Pack p)).r.toNat + (p.r &&& 7#8).toNat = p.r.toNat ∧
    (rgb565Unpack (rgb565Pack p)).g.toNat + (p.g &&& 3#8).toNat = p.g.toNat ∧
    (rgb565Unpack (rgb565Pack p)).b.toNat + (p.b &&& 7#8).toNat = p.b.toNat) ∧
  (∀ p q : Rgb, p.r ≤ q.r → p.g ≤ q.g → p.b ≤ q.b → rgb565Pack p ≤ rgb565Pack q) ∧
  (∀ v, rgb565Pack (rgb565Unpack v) = v) ∧
  (∀ v v', rgb565Unpack v = rgb565Unpack v' → v = v') ∧
  (∀ v, (rgb565Unpack v).r &&& 7#8 = 0 ∧ (rgb565Unpack v).g &&& 3#8 = 0 ∧ (rgb565Unpack v).b &&& 7#8 = 0)

/-- The laws of the gray lanes. -/
def Obligations.GrayLaneLaws : Prop :=
  (∀ p, grayUnpackByte (grayPackPair p) = ⟨p.l1 &&& 0xF0#8, p.l2 &&& 0xF0#8⟩) ∧
  (∀ p, (grayUnpackByte (grayPackPair p)).l1.toNat + (p.l1 &&& 0x0F#8).toNat = p.l1.toNat ∧
    (grayUnpackByte (grayPackPair p)).l2.toNat + (p.l2 &&& 0x0F#8).toNat = p.l2.toNat) ∧
  (∀ p q : GrayPair, p.l1 ≤ q.l1 → p.l2 ≤ q.l2 → grayPackPair p ≤ grayPackPair q) ∧
  (∀ b, grayPackPair (grayUnpackByte b) = b) ∧
  (∀ b b', grayUnpackByte b = grayUnpackByte b' → b = b') ∧
  (∀ b, (grayUnpackByte b).l1 &&& 0x0F#8 = 0 ∧ (grayUnpackByte b).l2 &&& 0x0F#8 = 0)

/-- Multi-byte values from bytes: little-endian header fields (R30), big-endian RGB565 word (R31), and its disassembly
(R51). Each value is stated by what it counts, so that which byte is the high one is said. -/
def Obligations.ByteAssemblyValues : Prop :=
  (∀ a b : Byte, (le16 a b).toNat = a.toNat + 2 ^ 8 * b.toNat) ∧
  (∀ a b c d : Byte, (le32 a b c d).toNat =
    a.toNat + 2 ^ 8 * b.toNat + 2 ^ 16 * c.toNat + 2 ^ 24 * d.toNat) ∧
  (∀ a b : Byte, (be16 a b).toNat = 2 ^ 8 * a.toNat + b.toNat) ∧
  (∀ a b : Byte, hiByte (be16 a b) = a ∧ loByte (be16 a b) = b) ∧
  (∀ v : Word16, be16 (hiByte v) (loByte v) = v)

/-- The primitives of R9: `MemRead(addr, 2)` and `MemRead(addr, 4)` are `le16` and `le32` of the bytes from `addr` on,
and `MemWrite(addr, 1, v)` stores the low byte of `v`. -/
def Obligations.MemPrimitivesLittleEndian : Prop :=
  (∀ (s : State) (a : Nat) (b0 b1 : Byte), s.readIn a = .ok b0 → s.readIn (a + 1) = .ok b1 →
    s.memRead a 2 = .ok (le16 b0 b1).toNat) ∧
  (∀ (s : State) (a : Nat) (b0 b1 b2 b3 : Byte), s.readIn a = .ok b0 → s.readIn (a + 1) = .ok b1 →
    s.readIn (a + 2) = .ok b2 → s.readIn (a + 3) = .ok b3 → s.memRead a 4 = .ok (le32 b0 b1 b2 b3).toNat) ∧
  (∀ (s : State) (a v : Nat), s.memWrite a 1 v = s.writeOut a (BitVec.ofNat 8 v))

/-- The magic is compared byte by byte, exactly: two values are known and every other four bytes are not. The byte
values come from general knowledge (R50, G1; log entry 12). -/
def Obligations.MagicExact : Prop :=
  ∀ b0 b1 b2 b3 : Byte,
    (magicFmt b0 b1 b2 b3 = some .rgb ↔ b0 = 0x54 ∧ b1 = 0x4F ∧ b2 = 0x49 ∧ b3 = 0x66) ∧
    (magicFmt b0 b1 b2 b3 = some .gray ↔ b0 = 0x54 ∧ b1 = 0x4F ∧ b2 = 0x49 ∧ b3 = 0x67)

/-- `size_ok`, and that no length passes for a gray image with an odd number of pixels. -/
def Obligations.SizeOkExact : Prop :=
  ∀ w h n : Nat,
    (sizeOk .rgb w h n = true ↔ n = 2 * w * h) ∧
    (sizeOk .gray w h n = true ↔ 2 * n = w * h) ∧
    (w % 2 = 1 → h % 2 = 1 → sizeOk .gray w h n = false)

/-- The numbers of the six errors. -/
def Obligations.ErrorCodesAsTabulated : Prop :=
  BlockError.unsupportedFormat.code = 1 ∧ BlockError.invalidDimensions.code = 2 ∧ BlockError.badMagic.code = 3 ∧
  BlockError.lengthMismatch.code = 4 ∧ BlockError.decompression.code = 5 ∧ BlockError.sizeMismatch.code = 6

/-! ### The operations -/

/-- R60, R61: RGB565_ENC, command word `0000`, on any bitmap the host supplies, with its frame: it ends normally for
every `w` and `h`, whatever `len` is. -/
def Obligations.Rgb565EncResult : Prop :=
  ∀ (w h len : Nat) (s : State), (Instr.rgb565Enc w h len).wf = true →
    encodeWord (.rgb565Enc w h len) = 0b0000#4 ∧
    (s.hasInput (3 * (w * h)) → 2 * (w * h) ≤ s.outRoom →
      ∃ t, exec (.rgb565Enc w h len) s = .next t ∧ t.endsOk (2 * (w * h)) ∧
        (∀ k < w * h, ∀ r g b, s.inBuf.read (3 * k) = some r → s.inBuf.read (3 * k + 1) = some g →
          s.inBuf.read (3 * k + 2) = some b →
          t.outBuf.read (2 * k) = some (hiByte (rgb565Pack ⟨r, g, b⟩)) ∧
          t.outBuf.read (2 * k + 1) = some (loByte (rgb565Pack ⟨r, g, b⟩))) ∧
        (∀ a, 2 * (w * h) ≤ a → t.outBuf.read a = s.outBuf.read a) ∧ s.sameButOut t)

/-- R66: GRAY_PACK, command word `0001`: the error on an odd width, and on an even width the packed stream of any
bitmap the host supplies, with its frame; `len` is ignored. -/
def Obligations.GrayPackResult : Prop :=
  ∀ (w h len : Nat) (s : State), (Instr.grayPack w h len).wf = true →
    encodeWord (.grayPack w h len) = 0b0001#4 ∧
    (w % 2 = 1 → exec (.grayPack w h len) s = .next (s.failedWith 2)) ∧
    (w % 2 = 0 → s.hasInput (w * h) → w * h / 2 ≤ s.outRoom →
      ∃ t, exec (.grayPack w h len) s = .next t ∧ t.endsOk (w * h / 2) ∧
        (∀ j < w * h / 2, ∀ l1 l2, s.inBuf.read (2 * j) = some l1 → s.inBuf.read (2 * j + 1) = some l2 →
          t.outBuf.read j = some (grayPackPair ⟨l1, l2⟩)) ∧
        (∀ a, w * h / 2 ≤ a → t.outBuf.read a = s.outBuf.read a) ∧ s.sameButOut t)

/-- R67, R97: GRAY_PACK raises InvalidDimensionsError, whatever `IN` and `OUT` are, if and only if `w` is odd, and no
other error; no other command raises it. -/
def Obligations.GrayPackOddWidth : Prop :=
  (∀ (w h len : Nat) (s : State),
    (w % 2 = 1 → exec (.grayPack w h len) s = .next (s.failedWith 2)) ∧
    (w % 2 = 0 → ∀ t r, exec (.grayPack w h len) s = .next t → t.response = some r → r.status = 0)) ∧
  (∀ (c : Command) (s t : State) (r : Response), exec (decode c) s = .next t → t.response = some r →
    (r.status = 2 ↔ c.cmd = 0b0001#4 ∧ c.w.toNat % 2 = 1))

/-- R96: PACK with an unrecognised tag always raises UnsupportedFormatError, and no other command does (the
spec's decision D4). -/
def Obligations.UnsupportedFormatRaised : Prop :=
  (∀ (f w h len : Nat) (s : State), exec (.packUnsupported f w h len) s = .next (s.failedWith 1)) ∧
  (∀ (c : Command) (s t : State) (r : Response), exec (decode c) s = .next t → t.response = some r →
    (r.status = 1 ↔ c.cmd = 0b0010#4 ∨ c.cmd = 0b0011#4))

/-- R84: RGB565_DEC, command word `0100`: the error on a stream of another length, and the bitmap of any stream of
the right length, with its frame. -/
def Obligations.Rgb565DecResult : Prop :=
  ∀ (w h n : Nat) (s : State), (Instr.rgb565Dec w h n).wf = true →
    encodeWord (.rgb565Dec w h n) = 0b0100#4 ∧
    (n ≠ 2 * (w * h) → exec (.rgb565Dec w h n) s = .next (s.failedWith 6)) ∧
    (n = 2 * (w * h) → s.hasInput n → 3 * (w * h) ≤ s.outRoom →
      ∃ t, exec (.rgb565Dec w h n) s = .next t ∧ t.endsOk (3 * (w * h)) ∧
        (∀ k < w * h, ∀ hi lo, s.inBuf.read (2 * k) = some hi → s.inBuf.read (2 * k + 1) = some lo →
          t.outBuf.read (3 * k) = some (rgb565Unpack (be16 hi lo)).r ∧
          t.outBuf.read (3 * k + 1) = some (rgb565Unpack (be16 hi lo)).g ∧
          t.outBuf.read (3 * k + 2) = some (rgb565Unpack (be16 hi lo)).b) ∧
        (∀ a, 3 * (w * h) ≤ a → t.outBuf.read a = s.outBuf.read a) ∧ s.sameButOut t)

/-- R85: RGB565_DEC raises SizeMismatchError, whatever `IN` and `OUT` are, if and only if `n` is not `2 * w * h`, and
no other error. -/
def Obligations.Rgb565DecSizeMismatch : Prop :=
  ∀ (w h n : Nat) (s : State),
    (n ≠ 2 * w * h → exec (.rgb565Dec w h n) s = .next (s.failedWith 6)) ∧
    (n = 2 * w * h → ∀ t r, exec (.rgb565Dec w h n) s = .next t → t.response = some r → r.status = 0)

/-- R90: GRAY_UNPACK, command word `0101`: the error on a stream of another length, and the bitmap of any stream of
the right length, whatever the parity of `w`, with its frame. -/
def Obligations.GrayUnpackResult : Prop :=
  ∀ (w h n : Nat) (s : State), (Instr.grayUnpack w h n).wf = true →
    encodeWord (.grayUnpack w h n) = 0b0101#4 ∧
    (2 * n ≠ w * h → exec (.grayUnpack w h n) s = .next (s.failedWith 6)) ∧
    (2 * n = w * h → s.hasInput n → w * h ≤ s.outRoom →
      ∃ t, exec (.grayUnpack w h n) s = .next t ∧ t.endsOk (w * h) ∧
        (∀ j < n, ∀ b, s.inBuf.read j = some b →
          t.outBuf.read (2 * j) = some (grayUnpackByte b).l1 ∧
          t.outBuf.read (2 * j + 1) = some (grayUnpackByte b).l2) ∧
        (∀ a, w * h ≤ a → t.outBuf.read a = s.outBuf.read a) ∧ s.sameButOut t)

/-- R91: GRAY_UNPACK raises SizeMismatchError, whatever `IN` and `OUT` are, if and only if `2 * n` is not `w * h`, and
no other error. -/
def Obligations.GrayUnpackSizeMismatch : Prop :=
  ∀ (w h n : Nat) (s : State),
    (2 * n ≠ w * h → exec (.grayUnpack w h n) s = .next (s.failedWith 6)) ∧
    (2 * n = w * h → ∀ t r, exec (.grayUnpack w h n) s = .next t → t.response = some r → r.status = 0)

/-- R75, R77: a good header of exactly the declared length is accepted, and every response field comes from its bytes.
Only the 12 header bytes need be there; nothing else in the state changes. The magic's bytes are PRESUMED (R50, G1; log
entry 12), and the response's form is the spec's decision D26. -/
def Obligations.HeaderAccepted : Prop :=
  ∀ (x w h blen : Nat) (s : State) (b : Nat → Byte), s.inputIs 12 b → goodMagic b = true →
    blen = 12 + declaredLength b →
    exec (.toifHdr x w h blen) s = .next { s with response := some (headerAnswer b) }

/-- R98: TOIF_HDR raises BadMagicError if and only if there are fewer than four bytes or they are not a known
magic. The magic's bytes are PRESUMED (R50, G1; log entry 12); the premise that the host supplies `min(blen, 12)` bytes is
log entry 13. -/
def Obligations.HeaderBadMagic : Prop :=
  ∀ (x w h blen : Nat) (s : State) (b : Nat → Byte), s.inputIs (min blen 12) b →
    (exec (.toifHdr x w h blen) s = .next (s.failedWith 3) ↔ blen < 4 ∨ goodMagic b = false)

/-- R99: TOIF_HDR raises LengthMismatchError if and only if the magic is good and the header is cut short or is not
followed by exactly the declared number of bytes. It rests on `STRICT_TRAILING` being true (log entry 11), the magic's bytes
(log entry 12) and the supplied bytes (log entry 13). -/
def Obligations.HeaderLengthMismatch : Prop :=
  ∀ (x w h blen : Nat) (s : State) (b : Nat → Byte), s.inputIs (min blen 12) b →
    (exec (.toifHdr x w h blen) s = .next (s.failedWith 4) ↔
      4 ≤ blen ∧ goodMagic b = true ∧ (blen < 12 ∨ blen - 12 ≠ declaredLength b))

/-- R76: the length check for both values of `STRICT_TRAILING`, and that this hardware has the value true (the
spec's decision D8; log entry 11). -/
def Obligations.LengthCheckBothReadings : Prop :=
  (∀ x w h blen s, exec (.toifHdr x w h blen) s = toifHdr true blen s) ∧
  (∀ (strict : Bool) (blen : Nat) (s : State) (b : Nat → Byte), s.inputIs 12 b → goodMagic b = true → 12 ≤ blen →
    (blen - 12 < declaredLength b → toifHdr strict blen s = .next (s.failedWith 4)) ∧
    (declaredLength b < blen - 12 → toifHdr true blen s = .next (s.failedWith 4)) ∧
    (declaredLength b < blen - 12 → toifHdr false blen s = .next { s with response := some (headerAnswer b) }) ∧
    (blen - 12 = declaredLength b → toifHdr strict blen s = .next { s with response := some (headerAnswer b) }))

/-- R52: a reserved command word is given no meaning, and these six words are all the reserved ones (the spec's
decision D5). -/
def Obligations.ReservedWordsRefused : Prop :=
  (∀ (f w h len : Nat) (s : State), exec (.reservedUnpackFmt f w h len) s = .refused .reservedCommand) ∧
  (∀ (x w h len : Nat) (s : State), exec (.reservedOp3 x w h len) s = .refused .reservedCommand) ∧
  (∀ (c : Command) (s : State), exec (decode c) s = .refused .reservedCommand ↔
    c.cmd = 0b0110#4 ∨ c.cmd = 0b0111#4 ∨ c.cmd = 0b1100#4 ∨ c.cmd = 0b1101#4 ∨ c.cmd = 0b1110#4 ∨ c.cmd = 0b1111#4)

/-- R15: operands an operation ignores have no effect whatever their value. -/
def Obligations.IgnoredOperandsHaveNoEffect : Prop :=
  ∀ (c d : Command) (s : State),
    (opField c.cmd = 0b00#2 → d.cmd = c.cmd → d.w = c.w → d.h = c.h → exec (decode d) s = exec (decode c) s) ∧
    (opField c.cmd = 0b10#2 → opField d.cmd = 0b10#2 → d.len = c.len → exec (decode d) s = exec (decode c) s)

/-- Zero dimensions are ordinary: with no pixel, nothing is read or written and the operation ends with `done(0)`. -/
def Obligations.ZeroPixelsOrdinary : Prop :=
  ∀ (w h len : Nat) (s : State), w * h = 0 →
    exec (.rgb565Enc w h len) s = .next { s with response := some ⟨0, 0, 0, 0, 0, 0⟩ } ∧
    (w % 2 = 0 → exec (.grayPack w h len) s = .next { s with response := some ⟨0, 0, 0, 0, 0, 0⟩ }) ∧
    exec (.rgb565Dec w h 0) s = .next { s with response := some ⟨0, 0, 0, 0, 0, 0⟩ } ∧
    exec (.grayUnpack w h 0) s = .next { s with response := some ⟨0, 0, 0, 0, 0, 0⟩ } ∧
    (len ≠ 0 → exec (.rgb565Dec w h len) s = .next (s.failedWith 6) ∧
      exec (.grayUnpack w h len) s = .next (s.failedWith 6))

/-- The row-major layouts: RGB565_ENC puts pixel `(x, y)` where R26 and R28 say. -/
def Obligations.RgbRowMajorLayout : Prop :=
  ∀ (w h len : Nat) (s t : State) (x y : Nat) (r g b : Byte), (Instr.rgb565Enc w h len).wf = true →
    exec (.rgb565Enc w h len) s = .next t → x < w → y < h →
    s.inBuf.read (3 * (y * w + x)) = some r → s.inBuf.read (3 * (y * w + x) + 1) = some g →
    s.inBuf.read (3 * (y * w + x) + 2) = some b →
    t.outBuf.read (2 * (y * w + x)) = some (hiByte (rgb565Pack ⟨r, g, b⟩)) ∧
    t.outBuf.read (2 * (y * w + x) + 1) = some (loByte (rgb565Pack ⟨r, g, b⟩))

/-- The row-major layouts: GRAY_PACK puts columns `2i` and `2i + 1` of row `y` in one byte (R27, R29). -/
def Obligations.GrayRowMajorLayout : Prop :=
  ∀ (w h len : Nat) (s t : State) (i y : Nat) (l1 l2 : Byte), (Instr.grayPack w h len).wf = true →
    w % 2 = 0 → exec (.grayPack w h len) s = .next t → 2 * i + 1 < w → y < h →
    s.inBuf.read (y * w + 2 * i) = some l1 → s.inBuf.read (y * w + (2 * i + 1)) = some l2 →
    t.outBuf.read (y * w / 2 + i) = some (grayPackPair ⟨l1, l2⟩)

/-! ### What holds of every operation -/

/-- Every operation leaves the whole state alone but for `OUT` and the response port: it never writes `IN`. -/
def Obligations.OperationsFrame : Prop :=
  ∀ (i : Instr) (s t : State), exec i s = .next t → s.sameButOut t

/-- R104: an error response carries the code and zeros, and nothing else of the state has changed (the spec's
decision D12). -/
def Obligations.ErrorHasNoOtherEffect : Prop :=
  ∀ (i : Instr) (s t : State) (r : Response), exec i s = .next t → t.response = some r → r.status ≠ 0 →
    t = s.failedWith r.status

/-- Every completed operation leaves a response, and the bytes of `OUT` it writes are exactly those below `out_len`. -/
def Obligations.WritesExactlyBelowOutLen : Prop :=
  ∀ (i : Instr) (s t : State), i.wf = true → exec i s = .next t →
    ∃ r, t.response = some r ∧ r.outLen.toNat ≤ s.outRoom ∧
      (∀ a < r.outLen.toNat, (t.outBuf.read a).isSome) ∧
      (∀ a, r.outLen.toNat ≤ a → t.outBuf.read a = s.outBuf.read a)

/-- No count of a well-formed command overflows 34 bits. -/
def Obligations.CountsFitLength : Prop :=
  ∀ i : Instr, i.wf = true → bytesNeeded i < 2 ^ 34 ∧ roomNeeded i < 2 ^ 34

/-- An operation whose input the host did not supply in full is refused by name (R120, U3). Which operations need which
bytes on an error is the model's choice (log entries 4 and 13). -/
def Obligations.ShortInputRefused : Prop :=
  ∀ (i : Instr) (s : State), i.wf = true → ¬ s.hasInput (bytesNeeded i) → roomNeeded i ≤ s.outRoom →
    exec i s = .refused .shortInput

/-- Bytes of `IN` beyond those an operation reads have no effect on it. -/
def Obligations.BytesBeyondNeedHaveNoEffect : Prop :=
  ∀ (i : Instr) (s t : State) (m : Memory), (∀ a < bytesNeeded i, m.read a = s.inBuf.read a) → exec i s = .next t →
    exec i { s with inBuf := m } = .next { t with inBuf := m }

/-- An operation whose output has too little room is refused by name (R121, U5). The room is an input of the model (log
entry 6). -/
def Obligations.SmallRoomRefused : Prop :=
  ∀ (i : Instr) (s : State), i.wf = true → s.hasInput (bytesNeeded i) → s.outRoom < roomNeeded i →
    exec i s = .refused .outTooSmall

/-- Expanding what was packed gives the bitmap with its low bits cleared: RGB565_ENC, then RGB565_DEC on its output. -/
def Obligations.RgbPackThenUnpack : Prop :=
  ∀ (w h len : Nat) (s : State), (Instr.rgb565Enc w h len).wf = true → s.hasInput (3 * (w * h)) →
    3 * (w * h) ≤ s.outRoom →
    ∃ t u, exec (.rgb565Enc w h len) s = .next t ∧
      exec (.rgb565Dec w h (2 * (w * h))) { t with inBuf := t.outBuf } = .next u ∧ u.endsOk (3 * (w * h)) ∧
      ∀ k < w * h, ∀ r g b, s.inBuf.read (3 * k) = some r → s.inBuf.read (3 * k + 1) = some g →
        s.inBuf.read (3 * k + 2) = some b →
        u.outBuf.read (3 * k) = some (r &&& 0xF8#8) ∧ u.outBuf.read (3 * k + 1) = some (g &&& 0xFC#8) ∧
        u.outBuf.read (3 * k + 2) = some (b &&& 0xF8#8)

/-- Packing what was expanded gives the stream back exactly: RGB565_DEC, then RGB565_ENC on its output. -/
def Obligations.RgbUnpackThenPack : Prop :=
  ∀ (w h len : Nat) (s : State), (Instr.rgb565Enc w h len).wf = true → s.hasInput (2 * (w * h)) →
    3 * (w * h) ≤ s.outRoom →
    ∃ t u, exec (.rgb565Dec w h (2 * (w * h))) s = .next t ∧
      exec (.rgb565Enc w h len) { t with inBuf := t.outBuf } = .next u ∧ u.endsOk (2 * (w * h)) ∧
      ∀ a < 2 * (w * h), u.outBuf.read a = s.inBuf.read a

/-- GRAY_PACK, then GRAY_UNPACK on its output, clears the low four bits of every luminance value. -/
def Obligations.GrayPackThenUnpack : Prop :=
  ∀ (w h len : Nat) (s : State), (Instr.grayPack w h len).wf = true → w % 2 = 0 → s.hasInput (w * h) →
    w * h ≤ s.outRoom →
    ∃ t u, exec (.grayPack w h len) s = .next t ∧
      exec (.grayUnpack w h (w * h / 2)) { t with inBuf := t.outBuf } = .next u ∧ u.endsOk (w * h) ∧
      ∀ k < w * h, ∀ l, s.inBuf.read k = some l → u.outBuf.read k = some (l &&& 0xF0#8)

/-- GRAY_UNPACK, then GRAY_PACK on its output, gives the stream back exactly. Odd widths, which GRAY_PACK rejects (R67),
have no such round trip. -/
def Obligations.GrayUnpackThenPack : Prop :=
  ∀ (w h len : Nat) (s : State), (Instr.grayPack w h len).wf = true → w % 2 = 0 → s.hasInput (w * h / 2) →
    w * h ≤ s.outRoom →
    ∃ t u, exec (.grayUnpack w h (w * h / 2)) s = .next t ∧
      exec (.grayPack w h len) { t with inBuf := t.outBuf } = .next u ∧ u.endsOk (w * h / 2) ∧
      ∀ a < w * h / 2, u.outBuf.read a = s.inBuf.read a

/-! ### The step -/

/-- A step runs the decoded command: with reset released and the host keeping R119, a presented command is taken off the
port and its instruction runs. That a step is a transaction and that the command leaves the port is the model's choice (log
entries 1 and 2). -/
def Obligations.StepRunsDecodedCommand : Prop :=
  ∀ (s : State) (c : Command), s.resetLine = .released → s.command = some c → s.hostBreach = none →
    step s = exec (decode c) { s with command := none }

/-- With no command presented the block is idle; that this is a step of its own is the model's choice (log entry 2). -/
def Obligations.IdleStepChangesNothing : Prop :=
  ∀ s : State, s.resetLine = .released → s.command = none → step s = .next s

/-- R113: while reset is asserted no command is accepted and no response is on the port. That the command stays on the
port and that the line stays asserted is the model's choice (log entry 9). -/
def Obligations.ResetAcceptsNothing : Prop :=
  ∀ s : State, s.resetLine = .asserted →
    ∃ t, step s = .next t ∧ t.command = s.command ∧ t.response = none ∧ t.resetLine = .asserted ∧
      t = { s with response := none }

/-- R115: reset during a transaction. Where the operation would have ended in state `u`, no response is delivered, the
command is gone, and the bytes of `OUT` the operation would have written hold free values, one of its own for each
index; `IN` and the host's inputs are as before. It holds for every value of the free bytes and of the counter. How the reset input is coded
is the model's choice (log entries 9 and 10). -/
def Obligations.ResetCutsTransaction : Prop :=
  ∀ (s u : State) (c : Command) (r : Response), s.resetLine = .cutsIn → s.command = some c → s.hostBreach = none →
    exec (decode c) { s with command := none } = .next u → u.response = some r →
    ∃ t, step s = .next t ∧ t.response = none ∧ t.command = none ∧ t.resetLine = .asserted ∧
      (∀ a < r.outLen.toNat, t.outBuf.read a = some (Config.freeByte (s.freeCtr + a))) ∧
      (∀ a, r.outLen.toNat ≤ a → t.outBuf.read a = s.outBuf.read a) ∧
      t.inBuf = s.inBuf ∧ t.outRoom = s.outRoom ∧ t.hostBreach = s.hostBreach ∧
      t.freeCtr = s.freeCtr + r.outLen.toNat

/-- A transaction during which the host breaks an obligation of R119 is refused by the name of what it does (U4;
that the breach is an input is the model's choice, log entry 8). -/
def Obligations.HostInterferenceRefused : Prop :=
  ∀ (s : State) (c : Command) (b : HostBreach), s.resetLine = .released → s.command = some c →
    s.hostBreach = some b → step s = .refused (.hostInterferes b)

/-- No step faults: no command can form an index outside the index space of R18 (the fault is the model's own, log entry
7). -/
def Obligations.NoStepFaults : Prop := ∀ (s : State) (f : Fault), step s ≠ .fault f

/-- Every step keeps the invariant: both buffers keep their form and the response port a legal shape. -/
def Obligations.StepKeepsInvariant : Prop := ∀ s t : State, s.Inv → step s = .next t → t.Inv

/-- The invariant holds after reset, and the block is idle with no response on the port (R21, R22). That nothing is
presented and nothing supplied is the model's choice (log entries 2, 4 and 5). -/
def Obligations.ResetHasInvariant : Prop :=
  State.reset.Inv ∧ State.reset.response = none ∧ step State.reset = .next State.reset

/-- Every accepted transaction delivers its response, where the host keeps its obligations (R126). That a transaction
is one step (log entry 1) and that the command leaves the port on acceptance (log entry 2) is the model's choice. -/
def Obligations.AcceptedTransactionResponds : Prop :=
  ∀ (s : State) (c : Command), s.resetLine = .released → s.command = some c → s.hostBreach = none →
    s.readyFor (decode c) →
    ∃ t r, step s = .next t ∧ t.response = some r ∧ r.legal ∧ t.command = none ∧ t.inBuf = s.inBuf

/-- R10: the result of a transaction is a function of its command and its input alone. Two states that agree on what the
host presents, however they differ otherwise, give the same response and the same output bytes, or stop alike. The
room of `OUT` and the host's conduct are inputs of the model (log entries 6 and 8). -/
def Obligations.TransactionsAreStateless : Prop :=
  ∀ (s1 s2 : State), s1.resetLine = .released → s2.resetLine = .released → s1.command.isSome →
    s2.command = s1.command → s2.inBuf = s1.inBuf → s2.outRoom = s1.outRoom → s2.hostBreach = s1.hostBreach →
    (∀ t1, step s1 = .next t1 → ∃ t2, step s2 = .next t2 ∧ t2.response = t1.response ∧
      ∀ a < t1.written, t2.outBuf.read a = t1.outBuf.read a) ∧
    (∀ q, step s1 = .refused q → step s2 = .refused q)

/-- Repeating a transaction with the same command and the same `IN` gives the same response and the same `OUT`. -/
def Obligations.TransactionIsIdempotent : Prop :=
  ∀ (s t : State) (c : Command), s.resetLine = .released → s.command = some c → step s = .next t →
    ∃ u, step { t with command := some c } = .next u ∧ u.response = t.response ∧
      ∀ a, u.outBuf.read a = t.outBuf.read a
end

