-- ==== Sys2Proof/Laws/Memory.lean ====
section
/-! SUPPORT. The laws of buffers: read after write, and that every operation keeps the form. -/

namespace Sys2Proof.Machine.Memory

@[simp] theorem read_nil (i : Nat) : Memory.read [] i = none := rfl

@[simp] theorem read_cons (c : Host.Cell) (m : Memory) (i : Nat) :
    Memory.read (c :: m) i = if i = c.1 then some c.2 else Memory.read m i := rfl

/-- A read of the written index gives the written byte. -/
@[simp] theorem read_write_same (m : Memory) (i : Nat) (v : Byte) : (m.write i v).read i = some v := by
  induction m with
  | nil => simp [Memory.write]
  | cons c m ih =>
    unfold Memory.write
    split
    · simp
    · split
      · simp
      · rename_i h1 h2
        simp [h2, ih]

/-- A write leaves every other index alone. -/
@[simp] theorem read_write_other (m : Memory) {i j : Nat} (v : Byte) (hij : j ≠ i) :
    (m.write i v).read j = m.read j := by
  induction m with
  | nil => simp [Memory.write, hij]
  | cons c m ih =>
    unfold Memory.write
    split
    · simp [hij]
    · split
      · rename_i h; simp [hij, ← h]
      · simp [ih]

/-- The indices a written buffer lists are those it listed before and the written one. -/
theorem mem_write {m : Memory} {i : Nat} {v : Byte} {c : Host.Cell} (hc : c ∈ m.write i v) : c ∈ m ∨ c = (i, v) := by
  induction m with
  | nil => simpa [Memory.write] using hc
  | cons d m ih =>
    unfold Memory.write at hc
    split at hc
    · simp at hc ⊢; tauto
    · split at hc
      · simp at hc ⊢; tauto
      · simp at hc ⊢
        rcases hc with hc | hc
        · tauto
        · rcases ih hc with hm | hm <;> tauto

/-- A write inside the index space keeps the form. -/
theorem write_wf {m : Memory} {i : Nat} (v : Byte) (hm : m.wf) (hi : i < Config.indexSpace) : (m.write i v).wf := by
  refine ⟨?_, fun c hc => ?_⟩
  · have hp := hm.1
    clear hm
    induction m with
    | nil => simp [Memory.write]
    | cons c m ih =>
      have hcm := List.pairwise_cons.1 hp
      unfold Memory.write
      split
      · rename_i hlt
        refine List.pairwise_cons.2 ⟨fun d hd => ?_, hp⟩
        rcases List.mem_cons.1 hd with rfl | hd
        · exact hlt
        · exact Nat.lt_trans hlt (hcm.1 d hd)
      · split
        · rename_i _ heq
          exact List.pairwise_cons.2 ⟨fun d hd => heq ▸ hcm.1 d hd, hcm.2⟩
        · rename_i hlt heq
          refine List.pairwise_cons.2 ⟨fun d hd => ?_, ih hcm.2⟩
          rcases mem_write hd with hd | rfl
          · exact hcm.1 d hd
          · exact Nat.lt_of_le_of_ne (Nat.le_of_not_lt hlt) (Ne.symm heq)
  · rcases mem_write hc with hc | rfl
    · exact hm.2 c hc
    · exact hi

/-- The bytes of `ofBytes`. -/
theorem read_ofBytes (bs : List Byte) (i j : Nat) :
    (Memory.ofBytes i bs).read j = if i ≤ j then bs[j - i]? else none := by
  induction bs generalizing i with
  | nil => simp [Memory.ofBytes]
  | cons b bs ih =>
    simp only [Memory.ofBytes, read_cons, ih]
    rcases Nat.lt_trichotomy j i with h | h | h
    · have h1 : ¬ i ≤ j := by omega
      have h2 : ¬ i + 1 ≤ j := by omega
      have h3 : j ≠ i := by omega
      simp [h1, h2, h3]
    · simp [h]
    · have h1 : i ≤ j := by omega
      have h2 : i + 1 ≤ j := by omega
      have h3 : j ≠ i := by omega
      have h4 : j - i = (j - (i + 1)) + 1 := by omega
      simp [h1, h2, h3, h4]

/-- `ofBytes` has the form, where the bytes fit the index space. -/
theorem ofBytes_wf (bs : List Byte) (i : Nat) (hi : i + bs.length ≤ Config.indexSpace) : (Memory.ofBytes i bs).wf := by
  have key : ∀ (bs : List Byte) (i : Nat), ∀ c ∈ Memory.ofBytes i bs, i ≤ c.1 ∧ c.1 < i + bs.length := by
    intro bs
    induction bs with
    | nil => simp [Memory.ofBytes]
    | cons b bs ih =>
      intro i c hc
      rcases List.mem_cons.1 hc with rfl | hc
      · simp
      · have := ih (i + 1) c hc
        simp only [List.length_cons]
        omega
  refine ⟨?_, fun c hc => by have := key bs i c hc; omega⟩
  clear hi
  induction bs generalizing i with
  | nil => simp [Memory.ofBytes]
  | cons b bs ih =>
    exact List.pairwise_cons.2 ⟨fun c hc => (key bs (i + 1) c hc).1, ih (i + 1)⟩

/-- Below `n`, `fillFree` reads as the free byte of that index. -/
theorem read_fillFree_lt (m : Memory) (ctr : Nat) {n i : Nat} (hi : i < n) :
    (m.fillFree ctr n).read i = some (Config.freeByte (ctr + i)) := by
  induction n with
  | zero => omega
  | succ n ih =>
    unfold Memory.fillFree
    by_cases h : i = n
    · subst h; simp
    · rw [read_write_other _ _ h]; exact ih (by omega)

/-- From `n` on, `fillFree` changes nothing. -/
theorem read_fillFree_ge (m : Memory) (ctr : Nat) {n i : Nat} (hi : n ≤ i) : (m.fillFree ctr n).read i = m.read i := by
  induction n with
  | zero => rfl
  | succ n ih =>
    unfold Memory.fillFree
    rw [read_write_other _ _ (by omega)]
    exact ih (by omega)

/-- `fillFree` keeps the form. -/
theorem fillFree_wf {m : Memory} (ctr : Nat) {n : Nat} (hm : m.wf) (hn : n ≤ Config.indexSpace) :
    (m.fillFree ctr n).wf := by
  induction n with
  | zero => exact hm
  | succ n ih => exact write_wf _ (ih (by omega)) (by omega)

/-- The buffers after reset have the form. -/
theorem reset_wf : State.reset.inBuf.wf ∧ State.reset.outBuf.wf := by decide

end Sys2Proof.Machine.Memory
end

