-- ==== Sys2Proof/Laws/State.lean ====
section
/-! SUPPORT. One lemma per field and update of the state, so that no proof unfolds a record update. -/

namespace Sys2Proof.Machine.State

variable (s : State) (e : BlockError) (n : Nat) (f : PixFmt) (w h : Word16) (clen : BitVec 32)

/-! ### `raise` -/

@[simp] theorem raise_resetLine : (s.raise e).resetLine = s.resetLine := rfl
@[simp] theorem raise_command : (s.raise e).command = s.command := rfl
@[simp] theorem raise_inBuf : (s.raise e).inBuf = s.inBuf := rfl
@[simp] theorem raise_outBuf : (s.raise e).outBuf = s.outBuf := rfl
@[simp] theorem raise_outRoom : (s.raise e).outRoom = s.outRoom := rfl
@[simp] theorem raise_response : (s.raise e).response = some (errorResponse e) := rfl
@[simp] theorem raise_hostBreach : (s.raise e).hostBreach = s.hostBreach := rfl
@[simp] theorem raise_freeCtr : (s.raise e).freeCtr = s.freeCtr := rfl

/-! ### `done` -/

@[simp] theorem done_resetLine : (s.done n).resetLine = s.resetLine := rfl
@[simp] theorem done_command : (s.done n).command = s.command := rfl
@[simp] theorem done_inBuf : (s.done n).inBuf = s.inBuf := rfl
@[simp] theorem done_outBuf : (s.done n).outBuf = s.outBuf := rfl
@[simp] theorem done_outRoom : (s.done n).outRoom = s.outRoom := rfl
@[simp] theorem done_response : (s.done n).response = some (okResponse n) := rfl
@[simp] theorem done_hostBreach : (s.done n).hostBreach = s.hostBreach := rfl
@[simp] theorem done_freeCtr : (s.done n).freeCtr = s.freeCtr := rfl

/-! ### `doneHeader` -/

@[simp] theorem doneHeader_resetLine : (s.doneHeader f w h clen).resetLine = s.resetLine := rfl
@[simp] theorem doneHeader_command : (s.doneHeader f w h clen).command = s.command := rfl
@[simp] theorem doneHeader_inBuf : (s.doneHeader f w h clen).inBuf = s.inBuf := rfl
@[simp] theorem doneHeader_outBuf : (s.doneHeader f w h clen).outBuf = s.outBuf := rfl
@[simp] theorem doneHeader_outRoom : (s.doneHeader f w h clen).outRoom = s.outRoom := rfl
@[simp] theorem doneHeader_response :
    (s.doneHeader f w h clen).response = some (headerResponse f w h clen) := rfl
@[simp] theorem doneHeader_hostBreach : (s.doneHeader f w h clen).hostBreach = s.hostBreach := rfl
@[simp] theorem doneHeader_freeCtr : (s.doneHeader f w h clen).freeCtr = s.freeCtr := rfl

/-! ### `accept` -/

@[simp] theorem accept_resetLine : s.accept.resetLine = s.resetLine := rfl
@[simp] theorem accept_command : s.accept.command = none := rfl
@[simp] theorem accept_inBuf : s.accept.inBuf = s.inBuf := rfl
@[simp] theorem accept_outBuf : s.accept.outBuf = s.outBuf := rfl
@[simp] theorem accept_outRoom : s.accept.outRoom = s.outRoom := rfl
@[simp] theorem accept_response : s.accept.response = s.response := rfl
@[simp] theorem accept_hostBreach : s.accept.hostBreach = s.hostBreach := rfl
@[simp] theorem accept_freeCtr : s.accept.freeCtr = s.freeCtr := rfl

/-! ### `underReset` -/

@[simp] theorem underReset_resetLine : s.underReset.resetLine = .asserted := rfl
@[simp] theorem underReset_command : s.underReset.command = s.command := rfl
@[simp] theorem underReset_inBuf : s.underReset.inBuf = s.inBuf := rfl
@[simp] theorem underReset_outBuf : s.underReset.outBuf = s.outBuf := rfl
@[simp] theorem underReset_outRoom : s.underReset.outRoom = s.outRoom := rfl
@[simp] theorem underReset_response : s.underReset.response = none := rfl
@[simp] theorem underReset_hostBreach : s.underReset.hostBreach = s.hostBreach := rfl
@[simp] theorem underReset_freeCtr : s.underReset.freeCtr = s.freeCtr := rfl

end Sys2Proof.Machine.State
end

