-- ==== Sys2Proof/Laws/Ops.lean ====
section
/-! SUPPORT. One lemma per shared operation that says everything it can do. -/

namespace Sys2Proof.Machine

/-! ### Sequencing -/

/-- A sequence ends well exactly when both its parts do. -/
theorem bind_eq_ok {α β : Type} {x : Except Stop α} {f : α → Except Stop β} {b : β} :
    (x >>= f) = .ok b ↔ ∃ a, x = .ok a ∧ f a = .ok b := by
  cases x with
  | error e => simp [bind, Except.bind]
  | ok a => simp [bind, Except.bind]

/-- A sequence stops exactly when one of its parts does. -/
theorem bind_eq_error {α β : Type} {x : Except Stop α} {f : α → Except Stop β} {e : Stop} :
    (x >>= f) = .error e ↔ x = .error e ∨ ∃ a, x = .ok a ∧ f a = .error e := by
  cases x with
  | error e => simp [bind, Except.bind]
  | ok a => simp [bind, Except.bind]

@[simp] theorem ok_bind {α β : Type} (a : α) (f : α → Except Stop β) : ((Except.ok a : Except Stop α) >>= f) = f a := rfl

@[simp] theorem error_bind {α β : Type} (e : Stop) (f : α → Except Stop β) :
    ((Except.error e : Except Stop α) >>= f) = .error e := rfl

@[simp] theorem finish_ok (t : State) : finish (.ok t) = .next t := rfl

/-- `finish` answers a next state exactly when the body ended well. -/
theorem finish_eq_next {x : Except Stop State} {t : State} : finish x = .next t ↔ x = .ok t := by
  rcases x with e | a
  · cases e <;> simp [finish]
  · simp [finish]

/-! ### One byte -/

/-- `readIn` answers exactly the supplied byte of an index of the index space. -/
theorem readIn_eq_ok {s : State} {i : Nat} {b : Byte} :
    s.readIn i = .ok b ↔ i < Config.indexSpace ∧ s.inBuf.read i = some b := by
  unfold State.readIn
  split
  · split <;> simp_all
  · simp_all

/-- `writeOut` stores the byte exactly where the index exists and has room. -/
theorem writeOut_eq_ok {s t : State} {i : Nat} {v : Byte} :
    s.writeOut i v = .ok t ↔
      i < Config.indexSpace ∧ i < s.outRoom ∧ t = { s with outBuf := s.outBuf.write i v } := by
  unfold State.writeOut
  split
  · split
    · simp_all [eq_comm]
    · simp_all
  · simp_all

/-- Why `readIn` stops. -/
theorem readIn_eq_error {s : State} {i : Nat} {e : Stop} :
    s.readIn i = .error e ↔
      (Config.indexSpace ≤ i ∧ e = .fault .indexOutsideSpace) ∨
      (i < Config.indexSpace ∧ s.inBuf.read i = none ∧ e = .refused .shortInput) := by
  by_cases hi : i < Config.indexSpace
  · have hn : ¬ Config.indexSpace ≤ i := by omega
    cases hb : s.inBuf.read i <;> simp [State.readIn, hi, hn, hb, eq_comm]
  · have hn : Config.indexSpace ≤ i := by omega
    simp [State.readIn, hi, hn, eq_comm]

/-- Why `writeOut` stops. -/
theorem writeOut_eq_error {s : State} {i : Nat} {v : Byte} {e : Stop} :
    s.writeOut i v = .error e ↔
      (Config.indexSpace ≤ i ∧ e = .fault .indexOutsideSpace) ∨
      (i < Config.indexSpace ∧ s.outRoom ≤ i ∧ e = .refused .outTooSmall) := by
  unfold State.writeOut
  split
  · split
    · simp; omega
    · simp_all [eq_comm]
  · simp_all [eq_comm]

/-- `supplies` says that every byte below `n` is there. -/
theorem supplies_iff {s : State} {n : Nat} : s.supplies n = true ↔ ∀ i < n, (s.inBuf.read i).isSome := by
  simp [State.supplies]

/-! ### The loop -/

/-- What one round keeps, the loop keeps. -/
theorem forLanes_keeps {body : Nat → State → Except Stop State} (P : Nat → State → Prop)
    (hbody : ∀ k s t, body k s = .ok t → P k s → P (k + 1) t) :
    ∀ {n k : Nat} {s t : State}, forLanes body k n s = .ok t → P k s → P (k + n) t := by
  intro n
  induction n with
  | zero =>
    intro k s t h hp
    cases h
    exact hp
  | succ n ih =>
    intro k s t h hp
    obtain ⟨u, hu, ht⟩ := bind_eq_ok.1 h
    have := ih ht (hbody k s u hu hp)
    rwa [Nat.add_assoc, Nat.add_comm 1 n] at this

/-- If every round can be run and keeps `P`, so does the loop. -/
theorem forLanes_runs {body : Nat → State → Except Stop State} (P : Nat → State → Prop) {n : Nat} :
    ∀ {k : Nat} {s : State}, (∀ j s, k ≤ j → j < k + n → P j s → ∃ t, body j s = .ok t ∧ P (j + 1) t) → P k s →
      ∃ t, forLanes body k n s = .ok t ∧ P (k + n) t := by
  induction n with
  | zero => exact fun _ hp => ⟨_, rfl, hp⟩
  | succ n ih =>
    intro k s hbody hp
    obtain ⟨u, hu, hpu⟩ := hbody k s (Nat.le_refl k) (by omega) hp
    obtain ⟨t, ht, hpt⟩ := ih (fun j s h1 h2 => hbody j s (by omega) (by omega)) hpu
    refine ⟨t, ?_, by rwa [Nat.add_assoc, Nat.add_comm 1 n] at hpt⟩
    simp [forLanes, hu, ht]

/-- A loop stops only because one of its rounds stops. -/
theorem forLanes_error {body : Nat → State → Except Stop State} (Q : Stop → Prop)
    {n : Nat} : ∀ {k : Nat} {s : State} {e : Stop},
      (∀ j s e, k ≤ j → j < k + n → body j s = .error e → Q e) → forLanes body k n s = .error e → Q e := by
  induction n with
  | zero => intro k s e _ h; cases h
  | succ n ih =>
    intro k s e hbody h
    cases hu : body k s with
    | error e' =>
      simp only [forLanes, hu, error_bind, Except.error.injEq] at h
      exact h ▸ hbody k s e' (Nat.le_refl k) (by omega) hu
    | ok u =>
      simp only [forLanes, hu, ok_bind] at h
      exact ih (fun j s e h1 h2 => hbody j s e (by omega) (by omega)) h

/-! ### The step -/

/-- Everything a step can be. -/
theorem step_cases (s : State) :
    (s.resetLine = .released ∧ s.command = none ∧ step s = .next s) ∨
    (∃ c, s.resetLine = .released ∧ s.command = some c ∧ step s = s.transact exec c) ∨
    ((s.resetLine = .asserted ∨ s.resetLine = .cutsIn ∧ s.command = none) ∧ step s = .next s.underReset) ∨
    (∃ c, s.resetLine = .cutsIn ∧ s.command = some c ∧ step s = s.abandon (s.transact exec c)) := by
  unfold step stepWith
  cases hl : s.resetLine <;> cases hc : s.command <;> simp

/-- An accepted command runs, unless the host breaks an obligation. -/
theorem transact_eq_next {run : Instr → State → Host.Outcome State Fault Refusal} {c : Command} {s t : State} :
    s.transact run c = .next t ↔ s.hostBreach = none ∧ run (decode c) s.accept = .next t := by
  unfold State.transact
  cases s.hostBreach <;> simp

/-- What an abandoned transaction leaves. -/
theorem abandon_eq_next {s t : State} {o : Host.Outcome State Fault Refusal} :
    s.abandon o = .next t ↔ ∃ u, o = .next u ∧
      t = { s.accept.underReset with
        outBuf  := s.outBuf.fillFree s.freeCtr u.written
        freeCtr := s.freeCtr + u.written } := by
  cases o <;> simp [State.abandon, eq_comm]

end Sys2Proof.Machine
end

