-- ==== Sys2Proof/Laws/Lanes.lean ====
section
/-! SUPPORT. One lemma per loop body: exactly when a round runs, and the state it gives. -/

namespace Sys2Proof.Machine

/-- A round of RGB565_ENC. -/
theorem rgb565EncLane_eq_ok {k : Nat} {s t : State} :
    rgb565EncLane k s = .ok t ↔
      ∃ r g b, s.inBuf.read (3 * k) = some r ∧ s.inBuf.read (3 * k + 1) = some g ∧ s.inBuf.read (3 * k + 2) = some b ∧
        3 * k + 2 < Config.indexSpace ∧ 2 * k + 1 < s.outRoom ∧
        t = { s with outBuf :=
          (s.outBuf.write (2 * k) (hiByte (rgb565Pack ⟨r, g, b⟩))).write (2 * k + 1) (loByte (rgb565Pack ⟨r, g, b⟩)) } := by
  simp only [rgb565EncLane, bind_eq_ok, readIn_eq_ok, writeOut_eq_ok]
  constructor
  · rintro ⟨r, ⟨_, hr⟩, g, ⟨_, hg⟩, b, ⟨hi, hb⟩, _, ⟨_, _, rfl⟩, _, hroom, rfl⟩
    exact ⟨r, g, b, hr, hg, hb, hi, hroom, rfl⟩
  · rintro ⟨r, g, b, hr, hg, hb, hi, hroom, rfl⟩
    exact ⟨r, ⟨by omega, hr⟩, g, ⟨by omega, hg⟩, b, ⟨hi, hb⟩, _, ⟨by omega, by omega, rfl⟩, by omega, hroom, rfl⟩

/-- A round of GRAY_PACK. -/
theorem grayPackLane_eq_ok {j : Nat} {s t : State} :
    grayPackLane j s = .ok t ↔
      ∃ l1 l2, s.inBuf.read (2 * j) = some l1 ∧ s.inBuf.read (2 * j + 1) = some l2 ∧
        2 * j + 1 < Config.indexSpace ∧ j < s.outRoom ∧
        t = { s with outBuf := s.outBuf.write j (grayPackPair ⟨l1, l2⟩) } := by
  simp only [grayPackLane, bind_eq_ok, readIn_eq_ok, writeOut_eq_ok]
  constructor
  · rintro ⟨l1, ⟨_, h1⟩, l2, ⟨hi, h2⟩, _, hroom, rfl⟩
    exact ⟨l1, l2, h1, h2, hi, hroom, rfl⟩
  · rintro ⟨l1, l2, h1, h2, hi, hroom, rfl⟩
    exact ⟨l1, ⟨by omega, h1⟩, l2, ⟨hi, h2⟩, by omega, hroom, rfl⟩

/-- A round of RGB565_DEC. -/
theorem rgb565DecLane_eq_ok {k : Nat} {s t : State} :
    rgb565DecLane k s = .ok t ↔
      ∃ hi lo, s.inBuf.read (2 * k) = some hi ∧ s.inBuf.read (2 * k + 1) = some lo ∧
        3 * k + 2 < Config.indexSpace ∧ 3 * k + 2 < s.outRoom ∧
        t = { s with outBuf :=
          ((s.outBuf.write (3 * k) (rgb565Unpack (be16 hi lo)).r).write
            (3 * k + 1) (rgb565Unpack (be16 hi lo)).g).write (3 * k + 2) (rgb565Unpack (be16 hi lo)).b } := by
  simp only [rgb565DecLane, bind_eq_ok, readIn_eq_ok, writeOut_eq_ok]
  constructor
  · rintro ⟨hi, ⟨_, h1⟩, lo, ⟨_, h2⟩, _, ⟨_, _, rfl⟩, _, ⟨_, _, rfl⟩, hx, hroom, rfl⟩
    exact ⟨hi, lo, h1, h2, hx, hroom, rfl⟩
  · rintro ⟨hi, lo, h1, h2, hx, hroom, rfl⟩
    exact ⟨hi, ⟨by omega, h1⟩, lo, ⟨by omega, h2⟩, _, ⟨by omega, by omega, rfl⟩, _,
      ⟨by omega, show 3 * k + 1 < s.outRoom by omega, rfl⟩, hx, hroom, rfl⟩

/-- A round of GRAY_UNPACK. -/
theorem grayUnpackLane_eq_ok {j : Nat} {s t : State} :
    grayUnpackLane j s = .ok t ↔
      ∃ b, s.inBuf.read j = some b ∧ 2 * j + 1 < Config.indexSpace ∧ 2 * j + 1 < s.outRoom ∧
        t = { s with outBuf :=
          (s.outBuf.write (2 * j) (grayUnpackByte b).l1).write (2 * j + 1) (grayUnpackByte b).l2 } := by
  simp only [grayUnpackLane, bind_eq_ok, readIn_eq_ok, writeOut_eq_ok]
  constructor
  · rintro ⟨b, ⟨_, h1⟩, _, ⟨_, _, rfl⟩, hx, hroom, rfl⟩
    exact ⟨b, h1, hx, hroom, rfl⟩
  · rintro ⟨b, h1, hx, hroom, rfl⟩
    exact ⟨b, ⟨by omega, h1⟩, _, ⟨by omega, by omega, rfl⟩, hx, hroom, rfl⟩

/-- Inside the index space a byte is refused only because the host did not supply it. -/
theorem readIn_stops {s : State} {i : Nat} {e : Stop} (hi : i < Config.indexSpace) (h : s.readIn i = .error e) :
    e = .refused .shortInput ∧ s.inBuf.read i = none := by
  rcases readIn_eq_error.1 h with ⟨hx, _⟩ | ⟨_, hn, he⟩
  · omega
  · exact ⟨he, hn⟩

/-- Inside the index space a write is refused only for want of room. -/
theorem writeOut_stops {s : State} {i : Nat} {v : Byte} {e : Stop} (hi : i < Config.indexSpace)
    (h : s.writeOut i v = .error e) : e = .refused .outTooSmall ∧ s.outRoom ≤ i := by
  rcases writeOut_eq_error.1 h with ⟨hx, _⟩ | ⟨_, hn, he⟩
  · omega
  · exact ⟨he, hn⟩

/-- Why a loop body stops: a byte of `IN` below `m` is missing, or `OUT` has no more than `n` bytes of room. -/
abbrev StopsFor (s : State) (e : Stop) (m n : Nat) : Prop :=
  (e = .refused .shortInput ∧ ∃ i < m, s.inBuf.read i = none) ∨ (e = .refused .outTooSmall ∧ s.outRoom ≤ n)

/-- Why a round of RGB565_ENC stops. -/
theorem rgb565EncLane_stops {k : Nat} {s : State} {e : Stop} (hk : 3 * k + 2 < Config.indexSpace)
    (h : rgb565EncLane k s = .error e) : StopsFor s e (3 * k + 3) (2 * k + 1) := by
  simp only [rgb565EncLane, bind_eq_error] at h
  rcases h with h | ⟨r, _, h | ⟨g, _, h | ⟨b, _, h | ⟨s1, h1, h⟩⟩⟩⟩
  · obtain ⟨he, hn⟩ := readIn_stops (by omega) h
    exact .inl ⟨he, _, by omega, hn⟩
  · obtain ⟨he, hn⟩ := readIn_stops (by omega) h
    exact .inl ⟨he, _, by omega, hn⟩
  · obtain ⟨he, hn⟩ := readIn_stops (by omega) h
    exact .inl ⟨he, _, by omega, hn⟩
  · obtain ⟨he, hn⟩ := writeOut_stops (by omega) h
    exact .inr ⟨he, by omega⟩
  · obtain ⟨_, _, rfl⟩ := writeOut_eq_ok.1 h1
    obtain ⟨he, hn⟩ := writeOut_stops (by omega) h
    exact .inr ⟨he, hn⟩

/-- Why a round of GRAY_PACK stops. -/
theorem grayPackLane_stops {j : Nat} {s : State} {e : Stop} (hj : 2 * j + 1 < Config.indexSpace)
    (h : grayPackLane j s = .error e) : StopsFor s e (2 * j + 2) j := by
  simp only [grayPackLane, bind_eq_error] at h
  rcases h with h | ⟨l1, _, h | ⟨l2, _, h⟩⟩
  · obtain ⟨he, hn⟩ := readIn_stops (by omega) h
    exact .inl ⟨he, _, by omega, hn⟩
  · obtain ⟨he, hn⟩ := readIn_stops (by omega) h
    exact .inl ⟨he, _, by omega, hn⟩
  · obtain ⟨he, hn⟩ := writeOut_stops (by omega) h
    exact .inr ⟨he, hn⟩

/-- Why a round of RGB565_DEC stops. -/
theorem rgb565DecLane_stops {k : Nat} {s : State} {e : Stop} (hk : 3 * k + 2 < Config.indexSpace)
    (h : rgb565DecLane k s = .error e) : StopsFor s e (2 * k + 2) (3 * k + 2) := by
  simp only [rgb565DecLane, bind_eq_error] at h
  rcases h with h | ⟨hi, _, h | ⟨lo, _, h | ⟨s1, h1, h | ⟨s2, h2, h⟩⟩⟩⟩
  · obtain ⟨he, hn⟩ := readIn_stops (by omega) h
    exact .inl ⟨he, _, by omega, hn⟩
  · obtain ⟨he, hn⟩ := readIn_stops (by omega) h
    exact .inl ⟨he, _, by omega, hn⟩
  · obtain ⟨he, hn⟩ := writeOut_stops (by omega) h
    exact .inr ⟨he, by omega⟩
  · obtain ⟨_, _, rfl⟩ := writeOut_eq_ok.1 h1
    obtain ⟨he, hn⟩ := writeOut_stops (by omega) h
    exact .inr ⟨he, Nat.le_succ_of_le hn⟩
  · obtain ⟨_, _, rfl⟩ := writeOut_eq_ok.1 h1
    obtain ⟨_, _, rfl⟩ := writeOut_eq_ok.1 h2
    obtain ⟨he, hn⟩ := writeOut_stops (by omega) h
    exact .inr ⟨he, hn⟩

/-- Why a round of GRAY_UNPACK stops. -/
theorem grayUnpackLane_stops {j : Nat} {s : State} {e : Stop} (hj : 2 * j + 1 < Config.indexSpace)
    (h : grayUnpackLane j s = .error e) : StopsFor s e (j + 1) (2 * j + 1) := by
  simp only [grayUnpackLane, bind_eq_error] at h
  rcases h with h | ⟨b, _, h | ⟨s1, h1, h⟩⟩
  · obtain ⟨he, hn⟩ := readIn_stops (by omega) h
    exact .inl ⟨he, _, by omega, hn⟩
  · obtain ⟨he, hn⟩ := writeOut_stops (by omega) h
    exact .inr ⟨he, by omega⟩
  · obtain ⟨_, _, rfl⟩ := writeOut_eq_ok.1 h1
    obtain ⟨he, hn⟩ := writeOut_stops (by omega) h
    exact .inr ⟨he, hn⟩

end Sys2Proof.Machine
end

