-- ==== Sys2Proof/Laws/Operands.lean ====
section
/-! SUPPORT. Shifted and or-ed bytes as natural numbers. -/

namespace Sys2Proof.Machine

/-- Adding a value below the shift is the same as or-ing it in. -/
theorem shiftLeft_or_eq (a b n : Nat) (hb : b < 2 ^ n) : a <<< n ||| b = a * 2 ^ n + b := by
  rw [← Nat.shiftLeft_add_eq_or_of_lt hb, Nat.shiftLeft_eq]

/-- A byte widened and shifted inside the wider word keeps its bits. -/
theorem toNat_setWidth_shiftLeft (n k : Nat) (a : Byte) (h : 8 + k ≤ n) :
    (a.setWidth n <<< k).toNat = a.toNat * 2 ^ k := by
  have ha : a.toNat < 2 ^ 8 := a.isLt
  have h1 : 2 ^ 8 * 2 ^ k ≤ 2 ^ n := by rw [← Nat.pow_add]; exact Nat.pow_le_pow_right (by omega) h
  have h2 : 2 ^ 8 ≤ 2 ^ n := Nat.pow_le_pow_right (by omega) (by omega)
  have h3 : a.toNat * 2 ^ k < 2 ^ 8 * 2 ^ k := Nat.mul_lt_mul_of_pos_right ha (Nat.two_pow_pos k)
  have h4 : a.toNat % 2 ^ n = a.toNat := Nat.mod_eq_of_lt (by omega)
  rw [BitVec.toNat_shiftLeft, BitVec.toNat_setWidth, h4, Nat.shiftLeft_eq, Nat.mod_eq_of_lt (by omega)]

end Sys2Proof.Machine
end

