-- ==== Sys2Proof/Laws/PerInstr.lean ====
section
/-! SUPPORT. The family `EncodedRow`: the encoded word of an instruction lies in its own row of spec/opcode_table.json. -/

namespace Sys2Proof.Laws.EncodedRow

/-- Some row of the table has the instruction's mnemonic and holds its encoded word. -/
def Statement (i : Instr) : Prop := ∃ r ∈ opcodeRows, r.mnemonic = i.mnemonic ∧ r.holds (encodeWord i) = true

/-- The one open bit of a row. -/
theorem bit_cases (f : Nat) : BitVec.ofNat 1 f = 0#1 ∨ BitVec.ofNat 1 f = 1#1 := by
  generalize BitVec.ofNat 1 f = b
  revert b
  decide

/-- The two open bits of a row. -/
theorem tag_cases (x : Nat) :
    BitVec.ofNat 2 x = 0#2 ∨ BitVec.ofNat 2 x = 1#2 ∨ BitVec.ofNat 2 x = 2#2 ∨ BitVec.ofNat 2 x = 3#2 := by
  generalize BitVec.ofNat 2 x = b
  revert b
  decide

theorem rgb565Enc (w h len : Nat) : Statement (.rgb565Enc w h len) :=
  ⟨⟨"RGB565_ENC", 0x0, 0xF⟩, by decide, rfl, by simp only [encodeWord]; decide⟩

theorem grayPack (w h len : Nat) : Statement (.grayPack w h len) :=
  ⟨⟨"GRAY_PACK", 0x1, 0xF⟩, by decide, rfl, by simp only [encodeWord]; decide⟩

theorem packUnsupported (f w h len : Nat) : Statement (.packUnsupported f w h len) :=
  ⟨⟨"PACK_UNSUPPORTED", 0x2, 0xE⟩, by decide, rfl, by
    simp only [encodeWord]; rcases bit_cases f with h | h <;> rw [h] <;> decide⟩

theorem rgb565Dec (w h len : Nat) : Statement (.rgb565Dec w h len) :=
  ⟨⟨"RGB565_DEC", 0x4, 0xF⟩, by decide, rfl, by simp only [encodeWord]; decide⟩

theorem grayUnpack (w h len : Nat) : Statement (.grayUnpack w h len) :=
  ⟨⟨"GRAY_UNPACK", 0x5, 0xF⟩, by decide, rfl, by simp only [encodeWord]; decide⟩

theorem reservedUnpackFmt (f w h len : Nat) : Statement (.reservedUnpackFmt f w h len) :=
  ⟨⟨"RESERVED_UNPACK_FMT", 0x6, 0xE⟩, by decide, rfl, by
    simp only [encodeWord]; rcases bit_cases f with h | h <;> rw [h] <;> decide⟩

theorem toifHdr (x w h len : Nat) : Statement (.toifHdr x w h len) :=
  ⟨⟨"TOIF_HDR", 0x8, 0xC⟩, by decide, rfl, by
    simp only [encodeWord]; rcases tag_cases x with h | h | h | h <;> rw [h] <;> decide⟩

theorem reservedOp3 (x w h len : Nat) : Statement (.reservedOp3 x w h len) :=
  ⟨⟨"RESERVED_OP3", 0xC, 0xC⟩, by decide, rfl, by
    simp only [encodeWord]; rcases tag_cases x with h | h | h | h <;> rw [h] <;> decide⟩

end Sys2Proof.Laws.EncodedRow
end

