-- ==== Sys2Proof/Laws/Syntax.lean ====
section
/-! SUPPORT. The small lemmas of well-formedness and of the fields of a command. -/

namespace Sys2Proof

/-- What `fitsPort` says. -/
theorem fitsPort_iff {w h len : Nat} : fitsPort w h len = true ↔ w < 2 ^ 16 ∧ h < 2 ^ 16 ∧ len < 2 ^ 34 := by
  simp [fitsPort, fitsDim, fitsLen, and_assoc]

/-- The operands of a command fit the port. -/
theorem fitsPort_toNat (w h : Word16) (len : BitVec 34) : fitsPort w.toNat h.toNat len.toNat = true :=
  fitsPort_iff.2 ⟨w.isLt, h.isLt, len.isLt⟩

/-- The 16 command words. -/
theorem cmd_cases (b : BitVec 4) :
    b = 0 ∨ b = 1 ∨ b = 2 ∨ b = 3 ∨ b = 4 ∨ b = 5 ∨ b = 6 ∨ b = 7 ∨ b = 8 ∨ b = 9 ∨ b = 10 ∨ b = 11 ∨ b = 12 ∨
      b = 13 ∨ b = 14 ∨ b = 15 := by
  revert b
  decide

/-- Two 16-bit dimensions have fewer than 2^32 pixels. -/
theorem pixels_lt {w h : Nat} (hw : w < 2 ^ 16) (hh : h < 2 ^ 16) : w * h ≤ 65535 * 65535 :=
  Nat.mul_le_mul (by omega) (by omega)

end Sys2Proof
end

