-- ==== Sys2Proof/Tests/Slice0.lean ====
section
/-! SUPPORT. Tests of the model's author: ill-formed terms, decoded words, one step at a time on small states, and a
witness for the hypotheses of every statement. Expected results are those of spec/95_test_vectors.md (its identifier
is named) or are computed by hand from the rule named. -/

namespace Sys2Proof.Tests

open Sys2Proof Sys2Proof.Machine

/-! ### Helpers -/

/-- A block after reset with a command presented, its input supplied, and room for `room` bytes. -/
def block (c : Command) (input : List Byte) (room : Nat) : State := State.reset.present c input room

/-- The same with an instruction in place of its command. -/
def given (i : Instr) (input : List Byte) (room : Nat) : State := block (encode i) input room

/-- The state an outcome gives, if it gives one. -/
def nextOf : Host.Outcome State Fault Refusal → Option State
  | .next t => some t
  | .fault _ => none
  | .refused _ => none

/-- The refusal an outcome gives, if it gives one. -/
def refusalOf : Host.Outcome State Fault Refusal → Option Refusal
  | .next _ => none
  | .fault _ => none
  | .refused r => some r

/-- The outcome is a response with this status and exactly these output bytes, counted by `out_len`. -/
def answers (o : Host.Outcome State Fault Refusal) (status : BitVec 3) (out : List Byte) : Bool :=
  match nextOf o with
  | some t => match t.response with
    | some r => r.status == status && r.outLen.toNat == out.length && t.outBuf == Memory.ofBytes 0 out
    | none => false
  | none => false

/-- The outcome is a response with these header fields. -/
def headerIs (o : Host.Outcome State Fault Refusal) (r : Response) : Bool :=
  match nextOf o with
  | some t => t.response == some r && t.outBuf == []
  | none => false

/-- The bitmap of vector A16. -/
def bmpA16 : List Byte := [0x12, 0x34, 0x56, 0xAB, 0xCD, 0xEF, 0x80, 0x80, 0x80]

/-- The stream of vectors A16 and D8. -/
def streamA16 : List Byte := [0x11, 0xAA, 0xAE, 0x7D, 0x84, 0x10]

/-- The header of vector H1. -/
def hdrH1 : List Byte := [0x54, 0x4F, 0x49, 0x66, 0x02, 0x00, 0x02, 0x00, 0x0D, 0x00, 0x00, 0x00]

/-! ### WellFormed refuses ill-formed terms, one for each check -/

theorem test_wf_width : (Instr.rgb565Enc 65536 1 0).wf = false := by decide
theorem test_wf_height : (Instr.grayPack 2 65536 0).wf = false := by decide
theorem test_wf_len : (Instr.toifHdr 0 0 0 (2 ^ 34)).wf = false := by decide
theorem test_wf_fmt_bit : (Instr.packUnsupported 2 0 0 0).wf = false := by decide
theorem test_wf_reserved_fmt_bit : (Instr.reservedUnpackFmt 2 0 0 0).wf = false := by decide
theorem test_wf_hdr_fmt : (Instr.toifHdr 4 0 0 0).wf = false := by decide
theorem test_wf_reserved_fmt : (Instr.reservedOp3 4 0 0 0).wf = false := by decide

/-! ### Decoding: words written bit by bit from R44; the tuples are those of 95_test_vectors.md -/

/-- P1 line 1. -/
theorem test_decode_rgb565Enc : decode ⟨0b0000#4, 2, 2, 0⟩ = .rgb565Enc 2 2 0 := by decide
/-- P5 line 3. -/
theorem test_decode_grayPack : decode ⟨0b0001#4, 2, 1, 0⟩ = .grayPack 2 1 0 := by decide
/-- X1. -/
theorem test_decode_packUnsupported_2 : decode ⟨0b0010#4, 2, 2, 0⟩ = .packUnsupported 0 2 2 0 := by decide
/-- X2. -/
theorem test_decode_packUnsupported_3 : decode ⟨0b0011#4, 3, 1, 0⟩ = .packUnsupported 1 3 1 0 := by decide
/-- P4 line 6. -/
theorem test_decode_rgb565Dec : decode ⟨0b0100#4, 2, 2, 8⟩ = .rgb565Dec 2 2 8 := by decide
/-- P2 line 3. -/
theorem test_decode_grayUnpack : decode ⟨0b0101#4, 4, 2, 4⟩ = .grayUnpack 4 2 4 := by decide
/-- X3. -/
theorem test_decode_reservedUnpackFmt : decode ⟨0b0111#4, 1, 2, 3⟩ = .reservedUnpackFmt 1 1 2 3 := by decide
/-- X4. -/
theorem test_decode_toifHdr : decode ⟨0b1001#4, 0, 0, 25⟩ = .toifHdr 1 0 0 25 := by decide
/-- X3. -/
theorem test_decode_reservedOp3 : decode ⟨0b1100#4, 9, 8, 7⟩ = .reservedOp3 0 9 8 7 := by decide
/-- The largest operands (R14). -/
theorem test_decode_largest :
    decode ⟨0b1111#4, 0xFFFF, 0xFFFF, 0x3FFFFFFFF⟩ = .reservedOp3 3 65535 65535 17179869183 := by decide

theorem test_table_word_gray_unpack : decodeTableWord 8 0b0101 = some (.grayUnpack 0 0 0) := by decide
theorem test_table_word_hdr : decodeTableWord 8 0b1010 = some (.toifHdr 2 0 0 0) := by decide
/-- A word of more than four bits is no command (R41). -/
theorem test_table_word_too_wide : decodeTableWord 8 16 = none := by decide

/-! ### RGB565_ENC -/

/-- E1. -/
theorem test_rgb565Enc_E1 :
    answers (step (given (.rgb565Enc 2 2 0)
      [0xFF, 0x00, 0x00, 0x00, 0xFF, 0x00, 0x00, 0x00, 0xFF, 0xFF, 0xFF, 0xFF] 8)) 0
      [0xF8, 0x00, 0x07, 0xE0, 0x00, 0x1F, 0xFF, 0xFF] = true := by decide
/-- A16, with an ignored `len` (A20). -/
theorem test_rgb565Enc_A16 : answers (step (given (.rgb565Enc 3 1 999) bmpA16 6)) 0 streamA16 = true := by decide

/-! ### GRAY_PACK -/

/-- G8. -/
theorem test_grayPack_G8 :
    answers (step (given (.grayPack 2 3 0) [0xFF, 0x80, 0x7F, 0x10, 0x0F, 0xF0] 3)) 0 [0xF8, 0x71, 0x0F] = true := by
  decide
/-- G7. -/
theorem test_grayPack_G7 : answers (step (given (.grayPack 3 2 0) [1, 2, 3, 4, 5, 6] 9)) 2 [] = true := by decide

/-! ### PACK_UNSUPPORTED -/

/-- X1: nothing is read, so nothing need be supplied. -/
theorem test_packUnsupported_X1 : answers (step (block ⟨0b0010#4, 2, 2, 0⟩ [] 0)) 1 [] = true := by decide
/-- X2: the width is not looked at. -/
theorem test_packUnsupported_X2 : answers (step (block ⟨0b0011#4, 3, 1, 0⟩ [] 0)) 1 [] = true := by decide

/-! ### RGB565_DEC -/

/-- D8. -/
theorem test_rgb565Dec_D8 :
    answers (step (given (.rgb565Dec 3 1 6) streamA16 9)) 0
      [0x10, 0x34, 0x50, 0xA8, 0xCC, 0xE8, 0x80, 0x80, 0x80] = true := by decide
/-- D6. -/
theorem test_rgb565Dec_D6 : answers (step (given (.rgb565Dec 2 2 7) [1, 2, 3, 4, 5, 6, 7] 12)) 6 [] = true := by
  decide

/-! ### GRAY_UNPACK -/

/-- U10: an odd width passes, and byte `34` straddles the rows. -/
theorem test_grayUnpack_U10 :
    answers (step (given (.grayUnpack 3 2 3) [0x12, 0x34, 0x56] 6)) 0 [0x10, 0x20, 0x30, 0x40, 0x50, 0x60] = true := by
  decide
/-- U11. -/
theorem test_grayUnpack_U11 :
    (answers (step (given (.grayUnpack 3 3 4) [1, 2, 3, 4] 9)) 6 [] &&
      answers (step (given (.grayUnpack 3 3 5) [1, 2, 3, 4, 5] 9)) 6 []) = true := by decide

/-! ### TOIF_HDR -/

/-- H5: little-endian fields; and H1 with ignored operands (H20). -/
theorem test_toifHdr_accepts :
    (headerIs (step (given (.toifHdr 0 0 0 67305997)
        [0x54, 0x4F, 0x49, 0x66, 0x02, 0x01, 0x04, 0x03, 0x01, 0x02, 0x03, 0x04] 0))
        ⟨0, 0, 0, 258, 772, 67305985⟩ &&
      headerIs (step (given (.toifHdr 3 9 9 25) hdrH1 0)) ⟨0, 0, 0, 2, 2, 13⟩ &&
      headerIs (step (given (.toifHdr 0 0 0 12) [0x54, 0x4F, 0x49, 0x67, 3, 0, 2, 0, 0, 0, 0, 0] 0))
        ⟨0, 0, 1, 3, 2, 0⟩) = true := by decide
/-- H2, H3, H15, H16 (length), H6, H8, H14, H17 (magic). -/
theorem test_toifHdr_rejects :
    (answers (step (given (.toifHdr 0 0 0 24) hdrH1 0)) 4 [] &&
      answers (step (given (.toifHdr 0 0 0 26) hdrH1 0)) 4 [] &&
      answers (step (given (.toifHdr 0 0 0 4) hdrH1 0)) 4 [] &&
      answers (step (given (.toifHdr 0 0 0 11) hdrH1 0)) 4 [] &&
      answers (step (given (.toifHdr 0 0 0 12) [0x54, 0x4F, 0x49, 0x46, 2, 0, 2, 0, 0, 0, 0, 0] 0)) 3 [] &&
      answers (step (given (.toifHdr 0 0 0 12) [0x54, 0x4F, 0x49, 0x65, 2, 0, 2, 0, 0, 0, 0, 0] 0)) 3 [] &&
      answers (step (given (.toifHdr 0 0 0 3) [0x54, 0x4F, 0x49] 0)) 3 [] &&
      answers (step (given (.toifHdr 0 0 0 5) [0x58, 0x58, 0x58, 0x58, 2] 0)) 3 []) = true := by decide

/-! ### Reserved words, the host's obligations, and the step -/

/-- X3. -/
theorem test_reserved_words :
    (refusalOf (step (block ⟨0b0110#4, 0, 0, 0⟩ [] 0)) = some .reservedCommand ∧
      refusalOf (step (block ⟨0b1100#4, 0, 0, 0⟩ [] 0)) = some .reservedCommand) := by decide
/-- R120, U3 and R121, U5. -/
theorem test_obligations_refused :
    (refusalOf (step (given (.rgb565Enc 1 1 0) [1, 2] 2)) = some .shortInput ∧
      refusalOf (step (given (.rgb565Enc 1 1 0) [1, 2, 3] 1)) = some .outTooSmall ∧
      refusalOf (step (given (.toifHdr 0 0 0 25) [0x54, 0x4F] 0)) = some .shortInput) := by decide
/-- R119, U4. -/
theorem test_interference_refused :
    refusalOf (step { given (.grayUnpack 2 1 1) [0xF0] 2 with hostBreach := some .buffersOverlap }) =
      some (.hostInterferes .buffersOverlap) := by decide
/-- R113. -/
theorem test_reset_asserted :
    nextOf (step { given (.grayUnpack 2 1 1) [0xF0] 2 with resetLine := .asserted }) =
      some { given (.grayUnpack 2 1 1) [0xF0] 2 with resetLine := .asserted } := by decide
/-- R115: two bytes would have been written, so two free bytes are taken; whatever they are. -/
theorem test_reset_cuts :
    step { given (.grayUnpack 2 1 1) [0xF0] 4 with resetLine := .cutsIn } =
      .next { given (.grayUnpack 2 1 1) [0xF0] 4 with
        resetLine := .asserted
        command   := none
        outBuf    := [(0, Config.freeByte 0), (1, Config.freeByte 1)]
        freeCtr   := 2 } := rfl
/-- R21, R22, R110. -/
theorem test_reset_idle : nextOf (step State.reset) = some State.reset := by decide
/-- The first transaction after reset runs the presented word. -/
theorem test_withFetchWord :
    answers (step (State.reset.withFetchWord 8 0b0001)) 0 [] = true ∧
      answers (step (State.reset.withFetchWord 8 0b1000)) 3 [] = true := by decide
/-- The six errors in R45's order (P5 line 1 and 2 codes among them). -/
theorem test_codes : [BlockError.unsupportedFormat, .invalidDimensions, .badMagic, .lengthMismatch, .decompression,
    .sizeMismatch].map BlockError.code = [1, 2, 3, 4, 5, 6] := by decide
/-- S5, S6, S10. -/
theorem test_size_ok : sizeOk .gray 3 2 3 = true ∧ sizeOk .gray 3 3 4 = false ∧ sizeOk .gray 3 3 5 = false ∧
    sizeOk .rgb 65535 65535 8589672450 = true := by decide
/-- A9, D3, G6, U5v: the lane functions, the decoded word from its two stream bytes. -/
theorem test_lanes : rgb565Pack ⟨0xAB, 0xCD, 0xEF⟩ = 0xAE7D ∧ rgb565Unpack (be16 0x12 0x34) = ⟨0x10, 0x44, 0xA0⟩ ∧
    grayPackPair ⟨0x80, 0x7F⟩ = 0x87 ∧ grayUnpackByte 0xA5 = ⟨0xA0, 0x50⟩ := by decide

/-! ### Witnesses: for every statement with hypotheses, a state and operands that meet them together -/

/-- DispatchTableComplete: the last value of each range. -/
theorem witness_DispatchTableComplete : (1 : Nat) < 2 ∧ (3 : Nat) < 4 := by decide

/-- DecodeOfEncode: every field at its largest value. -/
theorem witness_DecodeOfEncode :
    (Instr.toifHdr 3 65535 65535 17179869183).wf = true ∧ (Instr.packUnsupported 1 65535 65535 17179869183).wf = true ∧
      (Instr.rgb565Dec 65535 65535 17179869183).wf = true := by decide

/-- NumbersDecodeOrAreRejected: each field at the first value that does not fit, the fields before it at the last that
does. -/
theorem witness_NumbersDecodeOrAreRejected :
    decodeNats 16 0 0 0 = .error .cmdTooWide ∧ decodeNats 15 65536 0 0 = .error .widthTooWide ∧
      decodeNats 15 65535 65536 0 = .error .heightTooWide ∧
      decodeNats 15 65535 65535 17179869184 = .error .lenTooWide := ⟨rfl, rfl, rfl, rfl⟩

/-- PseudoOperationsExpand: a tag for each of its three cases. -/
theorem witness_PseudoOperationsExpand :
    (0b00#2 = 0) ∧ (0b01#2 = 1) ∧ (0b10#2 ≠ 0 ∧ 0b10#2 ≠ 1) ∧ (0b11#2 ≠ 0 ∧ 0b11#2 ≠ 1) := by decide

/-- Rgb565LaneLaws and GrayLaneLaws: two ordered pixels and two ordered pairs. -/
theorem witness_LaneLaws : (0x07#8 ≤ 0xFF#8) ∧ (0x00#8 ≤ 0x00#8) ∧ rgb565Unpack 0xFFFF = rgb565Unpack 0xFFFF ∧
    grayUnpackByte 0xFF = grayUnpackByte 0xFF := by decide

/-- MemPrimitivesLittleEndian: four supplied bytes, at the start of a buffer. -/
theorem witness_MemPrimitivesLittleEndian :
    (given (.toifHdr 0 0 0 4) [1, 2, 3, 4] 0).readIn 0 = .ok 1 ∧
      (given (.toifHdr 0 0 0 4) [1, 2, 3, 4] 0).readIn 1 = .ok 2 ∧
      (given (.toifHdr 0 0 0 4) [1, 2, 3, 4] 0).readIn 2 = .ok 3 ∧
      (given (.toifHdr 0 0 0 4) [1, 2, 3, 4] 0).readIn 3 = .ok 4 := ⟨rfl, rfl, rfl, rfl⟩

/-- SizeOkExact: the odd product. -/
theorem witness_SizeOkExact : 65535 % 2 = 1 ∧ 1 % 2 = 1 := by decide

/-- Rgb565EncResult: exactly the bytes and the room needed, all lane premises at the last pixel. -/
theorem witness_Rgb565EncResult :
    (Instr.rgb565Enc 3 1 0).wf = true ∧ (given (.rgb565Enc 3 1 0) bmpA16 6).hasInput (3 * (3 * 1)) ∧
      2 * (3 * 1) ≤ (given (.rgb565Enc 3 1 0) bmpA16 6).outRoom ∧
      (given (.rgb565Enc 3 1 0) bmpA16 6).inBuf.read (3 * 2) = some 0x80 ∧
      (given (.rgb565Enc 3 1 0) bmpA16 6).inBuf.read (3 * 2 + 1) = some 0x80 ∧
      (given (.rgb565Enc 3 1 0) bmpA16 6).inBuf.read (3 * 2 + 2) = some 0x80 := by decide

/-- GrayPackResult: the even clause with exactly the bytes and room needed; the odd clause at the largest width. -/
theorem witness_GrayPackResult :
    (Instr.grayPack 2 1 0).wf = true ∧ 2 % 2 = 0 ∧ (given (.grayPack 2 1 0) [0xF0, 0x0F] 1).hasInput (2 * 1) ∧
      2 * 1 / 2 ≤ (given (.grayPack 2 1 0) [0xF0, 0x0F] 1).outRoom ∧
      (given (.grayPack 2 1 0) [0xF0, 0x0F] 1).inBuf.read (2 * 0) = some 0xF0 ∧
      (given (.grayPack 2 1 0) [0xF0, 0x0F] 1).inBuf.read (2 * 0 + 1) = some 0x0F ∧
      (Instr.grayPack 65535 1 0).wf = true ∧ 65535 % 2 = 1 := by decide

/-- GrayPackOddWidth: an odd width, and a response to an even one and to a command. -/
theorem witness_GrayPackOddWidth :
    1 % 2 = 1 ∧ 2 % 2 = 0 ∧
      (∃ t r, exec (.grayPack 2 1 0) (given (.grayPack 2 1 0) [0xF0, 0x0F] 1) = .next t ∧ t.response = some r) ∧
      (∃ t r, exec (decode ⟨0b0001#4, 1, 1, 0⟩) State.reset = .next t ∧ t.response = some r) :=
  ⟨rfl, rfl, ⟨_, _, rfl, rfl⟩, ⟨_, _, rfl, rfl⟩⟩

/-- UnsupportedFormatRaised: a response with status 1, and one with another status. -/
theorem witness_UnsupportedFormatRaised :
    (∃ t r, exec (decode ⟨0b0011#4, 0, 0, 0⟩) State.reset = .next t ∧ t.response = some r ∧ r.status = 1) ∧
      (∃ t r, exec (decode ⟨0b1000#4, 0, 0, 0⟩) State.reset = .next t ∧ t.response = some r ∧ r.status = 3) :=
  ⟨⟨_, _, rfl, rfl, rfl⟩, ⟨_, _, rfl, rfl, rfl⟩⟩

/-- Rgb565DecResult: the right length with exactly the bytes and room needed, and the lengths beside it. -/
theorem witness_Rgb565DecResult :
    (Instr.rgb565Dec 3 1 6).wf = true ∧ 6 = 2 * (3 * 1) ∧ (given (.rgb565Dec 3 1 6) streamA16 9).hasInput 6 ∧
      3 * (3 * 1) ≤ (given (.rgb565Dec 3 1 6) streamA16 9).outRoom ∧
      (given (.rgb565Dec 3 1 6) streamA16 9).inBuf.read (2 * 2) = some 0x84 ∧
      (given (.rgb565Dec 3 1 6) streamA16 9).inBuf.read (2 * 2 + 1) = some 0x10 ∧
      (Instr.rgb565Dec 3 1 5).wf = true ∧ 5 ≠ 2 * (3 * 1) ∧ 7 ≠ 2 * (3 * 1) := by decide

/-- Rgb565DecSizeMismatch: one short, and a response at the right length. -/
theorem witness_Rgb565DecSizeMismatch :
    7 ≠ 2 * 2 * 2 ∧ 6 = 2 * 3 * 1 ∧
      ∃ t r, exec (.rgb565Dec 3 1 6) (given (.rgb565Dec 3 1 6) streamA16 9) = .next t ∧ t.response = some r :=
  ⟨by decide, by decide, _, _, rfl, rfl⟩

/-- GrayUnpackResult: an odd width of the right length with exactly the bytes and room needed, and an odd product. -/
theorem witness_GrayUnpackResult :
    (Instr.grayUnpack 3 2 3).wf = true ∧ 2 * 3 = 3 * 2 ∧
      (given (.grayUnpack 3 2 3) [0x12, 0x34, 0x56] 6).hasInput 3 ∧
      3 * 2 ≤ (given (.grayUnpack 3 2 3) [0x12, 0x34, 0x56] 6).outRoom ∧
      (given (.grayUnpack 3 2 3) [0x12, 0x34, 0x56] 6).inBuf.read 2 = some 0x56 ∧
      (Instr.grayUnpack 3 3 4).wf = true ∧ 2 * 4 ≠ 3 * 3 ∧ 2 * 5 ≠ 3 * 3 := by decide

/-- GrayUnpackSizeMismatch: one over, and a response at the right length. -/
theorem witness_GrayUnpackSizeMismatch :
    2 * 2 ≠ 2 * 1 ∧ 2 * 1 = 2 * 1 ∧
      ∃ t r, exec (.grayUnpack 2 1 1) (given (.grayUnpack 2 1 1) [0xF0] 2) = .next t ∧ t.response = some r :=
  ⟨by decide, rfl, _, _, rfl, rfl⟩

/-- The bytes of a list as a function of the index, 0 beyond its end. -/
def byteAt (l : List Byte) (i : Nat) : Byte := l.getD i 0

/-- HeaderAccepted: H1, and H10 (nothing declared, nothing following). -/
theorem witness_HeaderAccepted :
    (given (.toifHdr 0 0 0 25) hdrH1 0).inputIs 12 (byteAt hdrH1) ∧ goodMagic (byteAt hdrH1) = true ∧
      25 = 12 + declaredLength (byteAt hdrH1) ∧
      12 = 12 + declaredLength (byteAt [0x54, 0x4F, 0x49, 0x67, 0, 0, 0, 0, 0, 0, 0, 0]) ∧
      goodMagic (byteAt [0x54, 0x4F, 0x49, 0x67, 0, 0, 0, 0, 0, 0, 0, 0]) = true := by decide

/-- HeaderBadMagic: a blob one byte too short for a magic, a bad magic in four bytes, and a good one. -/
theorem witness_HeaderBadMagic :
    (given (.toifHdr 0 0 0 3) [0x54, 0x4F, 0x49] 0).inputIs (min 3 12) (byteAt [0x54, 0x4F, 0x49]) ∧
      (given (.toifHdr 0 0 0 4) [0x54, 0x4F, 0x49, 0x68] 0).inputIs (min 4 12) (byteAt [0x54, 0x4F, 0x49, 0x68]) ∧
      goodMagic (byteAt [0x54, 0x4F, 0x49, 0x68]) = false ∧
      (given (.toifHdr 0 0 0 25) hdrH1 0).inputIs (min 25 12) (byteAt hdrH1) := by decide

/-- HeaderLengthMismatch: the header cut at 4 and at 11 bytes, one byte missing, one too many. -/
theorem witness_HeaderLengthMismatch :
    (given (.toifHdr 0 0 0 4) hdrH1 0).inputIs (min 4 12) (byteAt hdrH1) ∧
      (given (.toifHdr 0 0 0 11) hdrH1 0).inputIs (min 11 12) (byteAt hdrH1) ∧
      (given (.toifHdr 0 0 0 24) hdrH1 0).inputIs (min 24 12) (byteAt hdrH1) ∧
      24 - 12 ≠ declaredLength (byteAt hdrH1) ∧ 26 - 12 ≠ declaredLength (byteAt hdrH1) := by decide

/-- LengthCheckBothReadings: 24, 25 and 26 bytes where 25 are declared fall each under one of its cases. -/
theorem witness_LengthCheckBothReadings :
    (given (.toifHdr 0 0 0 25) hdrH1 0).inputIs 12 (byteAt hdrH1) ∧ goodMagic (byteAt hdrH1) = true ∧
      24 - 12 < declaredLength (byteAt hdrH1) ∧ declaredLength (byteAt hdrH1) < 26 - 12 ∧
      25 - 12 = declaredLength (byteAt hdrH1) ∧ 12 ≤ 24 := by decide

/-- IgnoredOperandsHaveNoEffect: two commands of each kind that differ in what is ignored. -/
theorem witness_IgnoredOperandsHaveNoEffect :
    opField (0b0001#4) = 0b00#2 ∧ (⟨0b0001#4, 2, 1, 0⟩ : Command) ≠ ⟨0b0001#4, 2, 1, 0x3FFFFFFFF⟩ ∧
      opField (0b1000#4) = 0b10#2 ∧ opField (0b1011#4) = 0b10#2 ∧
      (⟨0b1000#4, 0, 0, 25⟩ : Command) ≠ ⟨0b1011#4, 9, 9, 25⟩ := by decide

/-- ZeroPixelsOrdinary: no width (even), no height (odd width), and a length that is not 0. -/
theorem witness_ZeroPixelsOrdinary : 0 * 5 = 0 ∧ 0 % 2 = 0 ∧ 65535 * 0 = 0 ∧ 1 ≠ 0 := by decide

/-- RgbRowMajorLayout: the last pixel of a 1 by 2 bitmap. -/
theorem witness_RgbRowMajorLayout :
    (Instr.rgb565Enc 1 2 0).wf = true ∧
      (∃ t, exec (.rgb565Enc 1 2 0) (given (.rgb565Enc 1 2 0) [1, 2, 3, 4, 5, 6] 4) = .next t) ∧ 0 < 1 ∧ 1 < 2 ∧
      (given (.rgb565Enc 1 2 0) [1, 2, 3, 4, 5, 6] 4).inBuf.read (3 * (1 * 1 + 0)) = some 4 ∧
      (given (.rgb565Enc 1 2 0) [1, 2, 3, 4, 5, 6] 4).inBuf.read (3 * (1 * 1 + 0) + 1) = some 5 ∧
      (given (.rgb565Enc 1 2 0) [1, 2, 3, 4, 5, 6] 4).inBuf.read (3 * (1 * 1 + 0) + 2) = some 6 :=
  ⟨by decide, ⟨_, rfl⟩, by decide, by decide, by decide, by decide, by decide⟩

/-- GrayRowMajorLayout: the last pair of a 2 by 2 bitmap. -/
theorem witness_GrayRowMajorLayout :
    (Instr.grayPack 2 2 0).wf = true ∧ 2 % 2 = 0 ∧
      (∃ t, exec (.grayPack 2 2 0) (given (.grayPack 2 2 0) [1, 2, 3, 4] 2) = .next t) ∧ 2 * 0 + 1 < 2 ∧ 1 < 2 ∧
      (given (.grayPack 2 2 0) [1, 2, 3, 4] 2).inBuf.read (1 * 2 + 2 * 0) = some 3 ∧
      (given (.grayPack 2 2 0) [1, 2, 3, 4] 2).inBuf.read (1 * 2 + (2 * 0 + 1)) = some 4 :=
  ⟨by decide, by decide, ⟨_, rfl⟩, by decide, by decide, by decide, by decide⟩

/-- OperationsFrame, WritesExactlyBelowOutLen: an operation that writes. -/
theorem witness_OperationsFrame :
    (Instr.grayUnpack 2 1 1).wf = true ∧
      ∃ t, exec (.grayUnpack 2 1 1) (given (.grayUnpack 2 1 1) [0xF0] 2) = .next t := ⟨by decide, _, rfl⟩

/-- ErrorHasNoOtherEffect: an error of each operation. -/
theorem witness_ErrorHasNoOtherEffect :
    (∃ t r, exec (.grayPack 3 2 0) State.reset = .next t ∧ t.response = some r ∧ r.status ≠ 0) ∧
      (∃ t r, exec (.packUnsupported 0 0 0 0) State.reset = .next t ∧ t.response = some r ∧ r.status ≠ 0) ∧
      (∃ t r, exec (.rgb565Dec 2 2 7) State.reset = .next t ∧ t.response = some r ∧ r.status ≠ 0) ∧
      (∃ t r, exec (.toifHdr 0 0 0 0) State.reset = .next t ∧ t.response = some r ∧ r.status ≠ 0) :=
  ⟨⟨_, _, rfl, rfl, by decide⟩, ⟨_, _, rfl, rfl, by decide⟩, ⟨_, _, rfl, rfl, by decide⟩,
    ⟨_, _, rfl, rfl, by decide⟩⟩

/-- CountsFitLength: the largest images (A21, G14). -/
theorem witness_CountsFitLength :
    (Instr.rgb565Enc 65535 65535 0).wf = true ∧ bytesNeeded (.rgb565Enc 65535 65535 0) = 12884508675 ∧
      roomNeeded (.rgb565Enc 65535 65535 0) = 8589672450 ∧ roomNeeded (.grayPack 65534 65535 0) = 2147385345 := by
  decide

/-- ShortInputRefused: the last byte missing. -/
theorem witness_ShortInputRefused :
    (Instr.rgb565Enc 1 1 0).wf = true ∧
      ¬ (given (.rgb565Enc 1 1 0) [1, 2] 2).hasInput (bytesNeeded (.rgb565Enc 1 1 0)) ∧
      roomNeeded (.rgb565Enc 1 1 0) ≤ (given (.rgb565Enc 1 1 0) [1, 2] 2).outRoom := by decide

/-- BytesBeyondNeedHaveNoEffect: another byte after the one that is read. -/
theorem witness_BytesBeyondNeedHaveNoEffect :
    (∀ a < bytesNeeded (.grayUnpack 2 1 1),
      Memory.read [(0, 0xF0), (1, 0x55)] a = (given (.grayUnpack 2 1 1) [0xF0] 2).inBuf.read a) ∧
      ∃ t, exec (.grayUnpack 2 1 1) (given (.grayUnpack 2 1 1) [0xF0] 2) = .next t := ⟨by decide, _, rfl⟩

/-- SmallRoomRefused: room for all bytes but the last. -/
theorem witness_SmallRoomRefused :
    (Instr.rgb565Enc 1 1 0).wf = true ∧
      (given (.rgb565Enc 1 1 0) [1, 2, 3] 1).hasInput (bytesNeeded (.rgb565Enc 1 1 0)) ∧
      (given (.rgb565Enc 1 1 0) [1, 2, 3] 1).outRoom < roomNeeded (.rgb565Enc 1 1 0) := by decide

/-- RgbPackThenUnpack and RgbUnpackThenPack. -/
theorem witness_RgbRoundTrips :
    (Instr.rgb565Enc 3 1 0).wf = true ∧ (given (.rgb565Enc 3 1 0) bmpA16 9).hasInput (3 * (3 * 1)) ∧
      3 * (3 * 1) ≤ (given (.rgb565Enc 3 1 0) bmpA16 9).outRoom ∧
      (given (.rgb565Enc 3 1 0) streamA16 9).hasInput (2 * (3 * 1)) ∧
      3 * (3 * 1) ≤ (given (.rgb565Enc 3 1 0) streamA16 9).outRoom := by decide

/-- GrayPackThenUnpack and GrayUnpackThenPack. -/
theorem witness_GrayRoundTrips :
    (Instr.grayPack 2 1 0).wf = true ∧ 2 % 2 = 0 ∧ (given (.grayPack 2 1 0) [0xF0, 0x0F] 2).hasInput (2 * 1) ∧
      2 * 1 ≤ (given (.grayPack 2 1 0) [0xF0, 0x0F] 2).outRoom ∧
      (given (.grayPack 2 1 0) [0xF0, 0x0F] 2).hasInput (2 * 1 / 2) := by decide

/-- StepRunsDecodedCommand and AcceptedTransactionResponds. -/
theorem witness_StepRunsDecodedCommand :
    (given (.rgb565Enc 3 1 0) bmpA16 6).resetLine = .released ∧
      (given (.rgb565Enc 3 1 0) bmpA16 6).command = some ⟨0b0000#4, 3, 1, 0⟩ ∧
      (given (.rgb565Enc 3 1 0) bmpA16 6).hostBreach = none ∧
      (given (.rgb565Enc 3 1 0) bmpA16 6).readyFor (decode ⟨0b0000#4, 3, 1, 0⟩) := by decide

/-- IdleStepChangesNothing. -/
theorem witness_IdleStepChangesNothing : State.reset.resetLine = .released ∧ State.reset.command = none := by decide

/-- ResetAcceptsNothing: a presented command while reset is asserted. -/
theorem witness_ResetAcceptsNothing :
    State.resetLine { given (.rgb565Enc 3 1 0) bmpA16 6 with resetLine := .asserted } = .asserted := by decide

/-- ResetCutsTransaction: an operation that would have written two bytes. -/
theorem witness_ResetCutsTransaction :
    ∃ (s u : State) (c : Command) (r : Response), s.resetLine = .cutsIn ∧ s.command = some c ∧ s.hostBreach = none ∧
      exec (decode c) { s with command := none } = .next u ∧ u.response = some r ∧ r.outLen = 2 :=
  ⟨{ given (.grayUnpack 2 1 1) [0xF0] 2 with resetLine := .cutsIn }, _, ⟨0b0101#4, 2, 1, 1⟩, _, rfl, rfl, rfl, rfl,
    rfl, rfl⟩

/-- HostInterferenceRefused. -/
theorem witness_HostInterferenceRefused :
    State.hostBreach { given (.grayUnpack 2 1 1) [0xF0] 2 with hostBreach := some .changesIn } = some .changesIn ∧
      (given (.grayUnpack 2 1 1) [0xF0] 2).resetLine = .released ∧
      (given (.grayUnpack 2 1 1) [0xF0] 2).command = some ⟨0b0101#4, 2, 1, 1⟩ := by decide

/-- StepKeepsInvariant: a presented transaction, its buffers in form, that runs. -/
theorem witness_StepKeepsInvariant :
    (given (.grayUnpack 2 1 1) [0xF0] 2).Inv ∧ ∃ t, step (given (.grayUnpack 2 1 1) [0xF0] 2) = .next t :=
  ⟨⟨by decide, by decide, fun _ h => nomatch h⟩, _, rfl⟩

/-- TransactionsAreStateless: two states that differ in `OUT`, in the last response and in the counter. -/
theorem witness_TransactionsAreStateless :
    ∃ s1 s2 : State, s1.resetLine = .released ∧ s2.resetLine = .released ∧ s1.command.isSome = true ∧
      s2.command = s1.command ∧ s2.inBuf = s1.inBuf ∧ s2.outRoom = s1.outRoom ∧ s2.hostBreach = s1.hostBreach ∧
      s1 ≠ s2 ∧ ∃ t, step s1 = .next t :=
  ⟨given (.grayUnpack 2 1 1) [0xF0] 2,
    { given (.grayUnpack 2 1 1) [0xF0] 2 with
      outBuf := [(0, 0x99)], response := some (errorResponse .badMagic), freeCtr := 7 },
    rfl, rfl, rfl, rfl, rfl, rfl, rfl, by decide, _, rfl⟩

/-- TransactionIsIdempotent. -/
theorem witness_TransactionIsIdempotent :
    ∃ (s t : State) (c : Command), s.resetLine = .released ∧ s.command = some c ∧ step s = .next t :=
  ⟨given (.grayUnpack 2 1 1) [0xF0] 2, _, ⟨0b0101#4, 2, 1, 1⟩, rfl, rfl, rfl⟩

end Sys2Proof.Tests
end

section
/-! Proofs of spec/00_scope.md: the little-endian access primitives of R9, and the counts of R8 against the 34 bits of
`len` and `out_len`. -/

namespace Sys2Proof.Machine

/-! ### Little-endian assembly -/

/-- Or-ing a byte, shifted by `k`, above a value of at most `k` bits adds it. -/
theorem toNat_or_setWidth_shiftLeft (n k : Nat) (v : BitVec n) (b : Byte) (h : 8 + k ≤ n) (hv : v.toNat < 2 ^ k) :
    (v ||| b.setWidth n <<< k).toNat = v.toNat + b.toNat * 2 ^ k := by
  rw [BitVec.toNat_or, toNat_setWidth_shiftLeft n k b h, Nat.or_comm, ← Nat.shiftLeft_eq, shiftLeft_or_eq _ _ _ hv,
    Nat.add_comm, Nat.shiftLeft_eq]

/-- The value of `le16`: the first byte counts ones, the second 256s (R9, R30). -/
theorem toNat_le16 (a b : Byte) : (le16 a b).toNat = a.toNat + 2 ^ 8 * b.toNat := by
  have ha : (a.setWidth 16).toNat = a.toNat := BitVec.toNat_setWidth_of_le (by decide)
  rw [le16, toNat_or_setWidth_shiftLeft 16 8 _ b (by decide) (ha ▸ a.isLt), ha, Nat.mul_comm]

/-- The value of `le32`: each byte counts 256 times the one before it (R9, R30). -/
theorem toNat_le32 (a b c d : Byte) :
    (le32 a b c d).toNat = a.toNat + 2 ^ 8 * b.toNat + 2 ^ 16 * c.toNat + 2 ^ 24 * d.toNat := by
  have ha : (a.setWidth 32).toNat = a.toNat := BitVec.toNat_setWidth_of_le (by decide)
  have hab := toNat_or_setWidth_shiftLeft 32 8 (a.setWidth 32) b (by decide) (ha ▸ a.isLt)
  have habc := toNat_or_setWidth_shiftLeft 32 16 (a.setWidth 32 ||| b.setWidth 32 <<< 8) c (by decide) (by omega)
  rw [le32, toNat_or_setWidth_shiftLeft 32 24 _ d (by decide) (by omega), habc, hab, ha]
  omega

/-! ### `MemRead` and `MemWrite` -/

@[simp] theorem memRead_zero (s : State) (a : Nat) : s.memRead a 0 = .ok 0 := rfl

/-- A read of one byte more: the byte at the index counts ones, the rest counts 256s. -/
theorem memRead_succ_of_readIn {s : State} {a : Nat} {b : Byte} (h : s.readIn a = .ok b) (n : Nat) :
    s.memRead a (n + 1) = (do
      let rest ← s.memRead (a + 1) n
      .ok (b.toNat + 2 ^ 8 * rest)) := by
  rw [State.memRead, h, ok_bind]

/-- `MemRead(a, 2)` is the `le16` of the two bytes there. -/
theorem memRead_two {s : State} {a : Nat} {b0 b1 : Byte} (h0 : s.readIn a = .ok b0) (h1 : s.readIn (a + 1) = .ok b1) :
    s.memRead a 2 = .ok (le16 b0 b1).toNat := by
  simp only [memRead_succ_of_readIn h0, memRead_succ_of_readIn h1, memRead_zero, ok_bind, toNat_le16,
    Nat.mul_zero, Nat.add_zero]

/-- `MemRead(a, 4)` is the `le32` of the four bytes there. -/
theorem memRead_four {s : State} {a : Nat} {b0 b1 b2 b3 : Byte} (h0 : s.readIn a = .ok b0)
    (h1 : s.readIn (a + 1) = .ok b1) (h2 : s.readIn (a + 2) = .ok b2) (h3 : s.readIn (a + 3) = .ok b3) :
    s.memRead a 4 = .ok (le32 b0 b1 b2 b3).toNat := by
  simp only [memRead_succ_of_readIn h0, memRead_succ_of_readIn h1, memRead_succ_of_readIn h2,
    memRead_succ_of_readIn h3, memRead_zero, ok_bind, toNat_le32]
  congr 1
  omega

/-- `MemWrite(a, 1, v)` is the store of the low byte of `v` and nothing more. -/
theorem memWrite_one (s : State) (a v : Nat) : s.memWrite a 1 v = s.writeOut a (BitVec.ofNat 8 v) := by
  simp only [State.memWrite]
  exact bind_pure _

/-! ### The counts of an operation -/

/-- Three bytes for each pixel of the largest image stay below `2 ^ 34` (R8, R62). -/
theorem rgbBytes_lt {w h : Nat} (hw : w < 2 ^ 16) (hh : h < 2 ^ 16) : 3 * (w * h) < 2 ^ 34 := by
  have hp := pixels_lt hw hh
  omega

/-- The bytes needed of `IN` and the room needed of `OUT` have a count below `2 ^ 34` each: both are at most three bytes
for each pixel, the operand `len`, or a header of 12 bytes (R8). -/
theorem counts_lt_of_wf {i : Instr} (hi : i.wf = true) : bytesNeeded i < 2 ^ 34 ∧ roomNeeded i < 2 ^ 34 := by
  cases i with
  | rgb565Enc w h len =>
    obtain ⟨hw, hh, -⟩ := fitsPort_iff.1 hi
    have hp := rgbBytes_lt hw hh
    simp only [bytesNeeded, roomNeeded]
    omega
  | grayPack w h len | rgb565Dec w h len | grayUnpack w h len =>
    obtain ⟨hw, hh, hlen⟩ := fitsPort_iff.1 hi
    have hp := rgbBytes_lt hw hh
    simp only [bytesNeeded, roomNeeded]
    constructor <;> split <;> omega
  | toifHdr x w h blen =>
    simp only [bytesNeeded, roomNeeded]
    omega
  | packUnsupported f w h len | reservedUnpackFmt f w h len | reservedOp3 f w h len =>
    simp [bytesNeeded, roomNeeded]

end Sys2Proof.Machine

/-- Settles O39: over the eight operations, each count against three bytes a pixel, `len` or the header. -/
theorem countsFitLength : Obligations.CountsFitLength := fun _ hi => Sys2Proof.Machine.counts_lt_of_wf hi

/-- Settles O15: the little-endian sum of the bytes is the value of `le16` and of `le32`, and a write of one byte is one
store. -/
theorem memPrimitivesLittleEndian : Obligations.MemPrimitivesLittleEndian :=
  ⟨fun _ _ _ _ h0 h1 => Sys2Proof.Machine.memRead_two h0 h1,
    fun _ _ _ _ _ _ h0 h1 h2 h3 => Sys2Proof.Machine.memRead_four h0 h1 h2 h3,
    Sys2Proof.Machine.memWrite_one⟩

end

section
/-! Proofs of spec/10_state.md: what a completed operation can have done, that every step keeps the invariant, that no
step faults, and that a transaction depends on its command and its input alone. -/

namespace Sys2Proof.Machine

/-! ### The operations as one loop behind a check -/

/-- `n` rounds of `body`, then `done(count)`: what the four pack and unpack operations do once their checks pass. -/
def runLanes (body : Nat → State → Except Stop State) (n count : Nat) (s : State) :
    Host.Outcome State Fault Refusal :=
  finish (do
    let t ← forLanes body 0 n s
    .ok (t.done count))

theorem exec_rgb565Enc (w h len : Nat) (s : State) :
    exec (.rgb565Enc w h len) s = runLanes rgb565EncLane (w * h) (2 * (w * h)) s := rfl

theorem exec_grayPack (w h len : Nat) (s : State) :
    exec (.grayPack w h len) s =
      if oddWidth w then .next (s.raise .invalidDimensions) else runLanes grayPackLane (w * h / 2) (w * h / 2) s := rfl

theorem exec_rgb565Dec (w h n : Nat) (s : State) :
    exec (.rgb565Dec w h n) s =
      if sizeOk .rgb w h n then runLanes rgb565DecLane (w * h) (3 * (w * h)) s else .next (s.raise .sizeMismatch) := rfl

theorem exec_grayUnpack (w h n : Nat) (s : State) :
    exec (.grayUnpack w h n) s =
      if sizeOk .gray w h n then runLanes grayUnpackLane n (2 * n) s else .next (s.raise .sizeMismatch) := rfl

theorem exec_toifHdr (x w h blen : Nat) (s : State) :
    exec (.toifHdr x w h blen) s = toifHdr Config.strictTrailing blen s := rfl

/-- No round at all: only the response changes. -/
@[simp] theorem runLanes_zero (body : Nat → State → Except Stop State) (count : Nat) (s : State) :
    runLanes body 0 count s = .next (s.done count) := rfl

/-- The loop completes exactly when all its rounds do. -/
theorem runLanes_eq_next {body : Nat → State → Except Stop State} {n count : Nat} {s t : State} :
    runLanes body n count s = .next t ↔ ∃ u, forLanes body 0 n s = .ok u ∧ t = u.done count := by
  simp [runLanes, finish_eq_next, bind_eq_ok, eq_comm (b := t)]

/-! ### What a completed operation can have done -/

/-- `t` is `s` but for `OUT`, which keeps its form: what stores at indices of the index space leave. -/
def State.Stored (s t : State) : Prop := ∃ m, t = { s with outBuf := m } ∧ (s.outBuf.wf → m.wf)

namespace State.Stored

theorem refl (s : State) : s.Stored s := ⟨s.outBuf, rfl, id⟩

theorem trans {s t u : State} (hst : s.Stored t) (htu : t.Stored u) : s.Stored u := by
  obtain ⟨m, rfl, hm⟩ := hst
  obtain ⟨m', rfl, hm'⟩ := htu
  exact ⟨m', rfl, hm' ∘ hm⟩

theorem of_write (s : State) {i : Nat} (v : Byte) (hi : i < Config.indexSpace) :
    s.Stored { s with outBuf := s.outBuf.write i v } :=
  ⟨_, rfl, fun hs => Memory.write_wf v hs hi⟩

/-- A round of RGB565_ENC stores two bytes. -/
theorem of_rgb565EncLane {k : Nat} {s t : State} (h : rgb565EncLane k s = .ok t) : s.Stored t := by
  obtain ⟨r, g, b, -, -, -, hi, -, rfl⟩ := rgb565EncLane_eq_ok.1 h
  exact (of_write s _ (by omega)).trans (of_write _ _ (by omega))

/-- A round of GRAY_PACK stores one byte. -/
theorem of_grayPackLane {j : Nat} {s t : State} (h : grayPackLane j s = .ok t) : s.Stored t := by
  obtain ⟨l1, l2, -, -, hi, -, rfl⟩ := grayPackLane_eq_ok.1 h
  exact of_write s _ (by omega)

/-- A round of RGB565_DEC stores three bytes. -/
theorem of_rgb565DecLane {k : Nat} {s t : State} (h : rgb565DecLane k s = .ok t) : s.Stored t := by
  obtain ⟨hi, lo, -, -, hx, -, rfl⟩ := rgb565DecLane_eq_ok.1 h
  exact ((of_write s _ (by omega)).trans (of_write _ _ (by omega))).trans (of_write _ _ hx)

/-- A round of GRAY_UNPACK stores two bytes. -/
theorem of_grayUnpackLane {j : Nat} {s t : State} (h : grayUnpackLane j s = .ok t) : s.Stored t := by
  obtain ⟨b, -, hx, -, rfl⟩ := grayUnpackLane_eq_ok.1 h
  exact (of_write s _ (by omega)).trans (of_write _ _ hx)

/-- Where every round only stores bytes, so does the loop. -/
theorem of_forLanes {body : Nat → State → Except Stop State} (hbody : ∀ {k s t}, body k s = .ok t → s.Stored t)
    {k n : Nat} {s t : State} (h : forLanes body k n s = .ok t) : s.Stored t :=
  forLanes_keeps (fun _ u => s.Stored u) (fun _ _ _ hu hs => hs.trans (hbody hu)) h (refl s)

end State.Stored

/-- How a transaction that completes has ended (R16, R77, R104): with an error the block raises, normally after storing
bytes in `OUT`, or with the fields of a header. -/
inductive Ended (s : State) : State → Prop
  | raised (e : BlockError) (he : e ≠ .decompression) : Ended s (s.raise e)
  | stored {u : State} (hu : s.Stored u) (n : Nat) : Ended s (u.done n)
  | header (f : PixFmt) (w h : Word16) (clen : BitVec 32) : Ended s (s.doneHeader f w h clen)

theorem ended_of_runLanes {body : Nat → State → Except Stop State}
    (hbody : ∀ {k s t}, body k s = .ok t → s.Stored t) {n count : Nat} {s t : State}
    (h : runLanes body n count s = .next t) : Ended s t := by
  obtain ⟨u, hu, rfl⟩ := runLanes_eq_next.1 h
  exact .stored (.of_forLanes hbody hu) count

theorem ended_of_headerFields {strict : Bool} {f : PixFmt} {blen : Nat} {s t : State}
    (h : headerFields strict f blen s = .ok t) : Ended s t := by
  simp only [headerFields, bind_eq_ok] at h
  obtain ⟨b4, -, b5, -, b6, -, b7, -, b8, -, b9, -, b10, -, b11, -, h⟩ := h
  cases h
  split
  · exact .raised .lengthMismatch nofun
  · exact .header ..

theorem ended_of_headerChecks {strict : Bool} {blen : Nat} {s t : State}
    (h : headerChecks strict blen s = .ok t) : Ended s t := by
  unfold headerChecks at h
  split at h
  · cases h
    exact .raised .badMagic nofun
  · simp only [bind_eq_ok] at h
    obtain ⟨b0, -, b1, -, b2, -, b3, -, h⟩ := h
    split at h
    · cases h
      exact .raised .badMagic nofun
    · split at h
      · cases h
        exact .raised .lengthMismatch nofun
      · exact ended_of_headerFields h

theorem ended_of_toifHdr {strict : Bool} {blen : Nat} {s t : State} (h : toifHdr strict blen s = .next t) :
    Ended s t := by
  unfold toifHdr at h
  split at h
  · exact ended_of_headerChecks (finish_eq_next.1 h)
  · cases h

/-- Every operation that completes, with any operands, has ended in one of the three ways. -/
theorem ended_of_exec {i : Instr} {s t : State} (h : exec i s = .next t) : Ended s t := by
  cases i with
  | rgb565Enc w h' len => exact ended_of_runLanes .of_rgb565EncLane h
  | grayPack w h' len =>
    rw [exec_grayPack] at h
    split at h
    · cases h
      exact .raised .invalidDimensions nofun
    · exact ended_of_runLanes .of_grayPackLane h
  | packUnsupported f w h' len =>
    cases h
    exact .raised .unsupportedFormat nofun
  | rgb565Dec w h' n =>
    rw [exec_rgb565Dec] at h
    split at h
    · exact ended_of_runLanes .of_rgb565DecLane h
    · cases h
      exact .raised .sizeMismatch nofun
  | grayUnpack w h' n =>
    rw [exec_grayUnpack] at h
    split at h
    · exact ended_of_runLanes .of_grayUnpackLane h
    · cases h
      exact .raised .sizeMismatch nofun
  | toifHdr x w h' blen => exact ended_of_toifHdr h
  | reservedUnpackFmt f w h' len | reservedOp3 f w h' len => cases h

/-! ### The invariant -/

/-- The five errors the block raises have a legal response; the inflater's code 5 has none (R100). -/
theorem errorResponse_legal {e : BlockError} (he : e ≠ .decompression) : (errorResponse e).legal := by
  cases e with
  | decompression => exact absurd rfl he
  | unsupportedFormat | invalidDimensions | badMagic | lengthMismatch | sizeMismatch => decide

theorem okResponse_legal (n : Nat) : (okResponse n).legal := by
  simp [okResponse, Response.legal]

theorem headerResponse_legal (f : PixFmt) (w h : Word16) (clen : BitVec 32) :
    (headerResponse f w h clen).legal := by
  cases f <;> simp [headerResponse, fmtCode, Response.legal]

/-- The count on the response port has 34 bits. -/
theorem State.written_lt (s : State) : s.written < 2 ^ 34 := by
  unfold State.written
  split
  · exact BitVec.isLt _
  · decide

/-- A new legal response on the port keeps the invariant. -/
theorem State.Inv.respond {s t : State} {r : Response} (hs : s.Inv) (hin : t.inBuf = s.inBuf)
    (hout : t.outBuf.wf) (hr : t.response = some r) (hl : r.legal) : t.Inv where
  inWf := hin ▸ hs.inWf
  outWf := hout
  resp q hq := by
    cases hr.symm.trans hq
    exact hl

/-- A transaction that completes keeps the invariant. -/
theorem Ended.inv {s t : State} (h : Ended s t) (hs : s.Inv) : t.Inv := by
  cases h with
  | raised e he => exact hs.respond rfl hs.outWf rfl (errorResponse_legal he)
  | stored hu n =>
    obtain ⟨m, rfl, hm⟩ := hu
    exact hs.respond rfl (hm hs.outWf) rfl (okResponse_legal n)
  | header f w h clen => exact hs.respond rfl hs.outWf rfl (headerResponse_legal f w h clen)

theorem State.Inv.accept {s : State} (hs : s.Inv) : s.accept.Inv := ⟨hs.inWf, hs.outWf, hs.resp⟩

theorem State.Inv.underReset {s : State} (hs : s.Inv) : s.underReset.Inv := ⟨hs.inWf, hs.outWf, nofun⟩

/-- A transaction cut by reset fills at most the index space with free bytes, and delivers no response. -/
theorem inv_of_abandon {s t : State} {o : Host.Outcome State Fault Refusal} (hs : s.Inv)
    (h : s.abandon o = .next t) : t.Inv := by
  obtain ⟨u, -, rfl⟩ := abandon_eq_next.1 h
  exact ⟨hs.inWf, Memory.fillFree_wf _ hs.outWf u.written_lt.le, nofun⟩

/-- The invariant is kept by a working step, an idle one, one under reset and one that reset cuts. -/
theorem inv_of_step {s t : State} (hs : s.Inv) (h : step s = .next t) : t.Inv := by
  rcases step_cases s with ⟨-, -, hstep⟩ | ⟨c, -, -, hstep⟩ | ⟨-, hstep⟩ | ⟨c, -, -, hstep⟩ <;> rw [hstep] at h
  · cases h
    exact hs
  · exact (ended_of_exec (transact_eq_next.1 h).2).inv hs.accept
  · cases h
    exact hs.underReset
  · exact inv_of_abandon hs h

/-! ### The step of a working block -/

/-- With reset released, a presented command is a whole transaction (R13). -/
theorem step_of_command {s : State} {c : Command} (hl : s.resetLine = .released) (hc : s.command = some c) :
    step s = s.transact exec c := by
  simp [step, stepWith, hl, hc]

theorem transact_of_no_breach (run : Instr → State → Host.Outcome State Fault Refusal) (c : Command) {s : State}
    (hb : s.hostBreach = none) : s.transact run c = run (decode c) s.accept := by
  simp [State.transact, hb]

/-- A transaction faults only where the operation does. -/
theorem exec_eq_fault_of_transact {run : Instr → State → Host.Outcome State Fault Refusal} {c : Command} {s : State}
    {f : Fault} (h : s.transact run c = .fault f) : run (decode c) s.accept = .fault f := by
  unfold State.transact at h
  split at h
  · cases h
  · exact h

/-- A transaction cut by reset faults only where the operation would have. -/
theorem eq_fault_of_abandon {s : State} {o : Host.Outcome State Fault Refusal} {f : Fault}
    (h : s.abandon o = .fault f) : o = .fault f := by
  cases o with
  | next t | refused r => cases h
  | fault g => exact h

/-! ### No operation faults -/

/-- A command decodes to an instruction whose operands fit the port (R14). -/
theorem decode_wf (c : Command) : (decode c).wf = true := by
  have hport := fitsPort_toNat c.w c.h c.len
  have hbit : (fmtField c.cmd).toNat % 2 < 2 := Nat.mod_lt _ (by decide)
  have htag : (fmtField c.cmd).toNat < 4 := (fmtField c.cmd).isLt
  simp only [decode]
  split
  · cases fmtOfTag (fmtField c.cmd) with
    | none => simp [Instr.wf, hport, hbit]
    | some f => cases f <;> exact hport
  · split
    · cases fmtOfTag (fmtField c.cmd) with
      | none => simp [Instr.wf, hport, hbit]
      | some f => cases f <;> exact hport
    · split <;> simp [Instr.wf, hport, htag]

/-- The body of an operation does not fault: where it stops, it is refused. -/
def NeverFaults {α : Type} (x : Except Stop α) : Prop := ∀ f, x ≠ .error (.fault f)

namespace NeverFaults

theorem ok {α : Type} (a : α) : NeverFaults (.ok a) := nofun

theorem bind {α β : Type} {x : Except Stop α} {g : α → Except Stop β} (hx : NeverFaults x)
    (hg : ∀ a, NeverFaults (g a)) : NeverFaults (x >>= g) := by
  intro f h
  rcases bind_eq_error.1 h with h | ⟨a, -, h⟩
  · exact hx f h
  · exact hg a f h

theorem readIn (s : State) {i : Nat} (hi : i < Config.indexSpace) : NeverFaults (s.readIn i) := by
  intro f h
  cases (readIn_stops hi h).1

/-- What stops for want of input or of room does not fault. -/
theorem of_stopsFor {α : Type} {x : Except Stop α} {s : State} {m n : Nat}
    (h : ∀ {e}, x = .error e → StopsFor s e m n) : NeverFaults x := by
  intro f hf
  rcases h hf with ⟨he, -⟩ | ⟨he, -⟩ <;> cases he

/-- A loop none of whose rounds faults does not fault. -/
theorem forLanes {body : Nat → State → Except Stop State} {n : Nat} (s : State)
    (hbody : ∀ k s, k < n → NeverFaults (body k s)) : NeverFaults (forLanes body 0 n s) := by
  intro f h
  refine forLanes_error (· ≠ .fault f) (fun k u e _ hk he hf => ?_) h rfl
  exact hbody k u (by omega) f (hf ▸ he)

theorem finish {x : Except Stop State} (hx : NeverFaults x) (f : Fault) : finish x ≠ .fault f := by
  rcases x with (g | r) | t
  · exact absurd rfl (hx g)
  · nofun
  · nofun

theorem headerFields (strict : Bool) (g : PixFmt) (blen : Nat) (s : State) :
    NeverFaults (headerFields strict g blen s) := by
  have hread : ∀ i < 12, NeverFaults (s.readIn i) := fun _ hi => readIn s (hi.trans (by decide))
  exact (hread 4 (by decide)).bind fun _ => (hread 5 (by decide)).bind fun _ => (hread 6 (by decide)).bind fun _ =>
    (hread 7 (by decide)).bind fun _ => (hread 8 (by decide)).bind fun _ => (hread 9 (by decide)).bind fun _ =>
    (hread 10 (by decide)).bind fun _ => (hread 11 (by decide)).bind fun _ => ok _

theorem headerChecks (strict : Bool) (blen : Nat) (s : State) : NeverFaults (headerChecks strict blen s) := by
  have hread : ∀ i < 12, NeverFaults (s.readIn i) := fun _ hi => readIn s (hi.trans (by decide))
  unfold Machine.headerChecks
  split
  · exact ok _
  · refine (hread 0 (by decide)).bind fun _ => (hread 1 (by decide)).bind fun _ => (hread 2 (by decide)).bind fun _ =>
      (hread 3 (by decide)).bind fun _ => ?_
    split
    · exact ok _
    · split
      · exact ok _
      · exact headerFields _ _ _ _

end NeverFaults

theorem runLanes_ne_fault {body : Nat → State → Except Stop State} {n : Nat} (count : Nat) (s : State) (f : Fault)
    (hbody : ∀ k s, k < n → NeverFaults (body k s)) : runLanes body n count s ≠ .fault f :=
  ((NeverFaults.forLanes s hbody).bind fun _ => .ok _).finish f

/-- An operation whose operands fit the port forms no index outside the index space (R8, R18). -/
theorem exec_ne_fault {i : Instr} (hi : i.wf = true) (s : State) (f : Fault) : exec i s ≠ .fault f := by
  cases i with
  | rgb565Enc w h len =>
    obtain ⟨hw, hh, -⟩ := fitsPort_iff.1 hi
    have hp : 3 * (w * h) < Config.indexSpace := rgbBytes_lt hw hh
    exact runLanes_ne_fault _ s f fun k u hk => .of_stopsFor (rgb565EncLane_stops (by omega))
  | grayPack w h len =>
    obtain ⟨hw, hh, -⟩ := fitsPort_iff.1 hi
    have hp : 3 * (w * h) < Config.indexSpace := rgbBytes_lt hw hh
    rw [exec_grayPack]
    split
    · nofun
    · exact runLanes_ne_fault _ s f fun j u hj => .of_stopsFor (grayPackLane_stops (by omega))
  | packUnsupported g w h len => nofun
  | rgb565Dec w h n =>
    obtain ⟨hw, hh, -⟩ := fitsPort_iff.1 hi
    have hp : 3 * (w * h) < Config.indexSpace := rgbBytes_lt hw hh
    rw [exec_rgb565Dec]
    split
    · exact runLanes_ne_fault _ s f fun k u hk => .of_stopsFor (rgb565DecLane_stops (by omega))
    · nofun
  | grayUnpack w h n =>
    obtain ⟨hw, hh, -⟩ := fitsPort_iff.1 hi
    have hp : 3 * (w * h) < Config.indexSpace := rgbBytes_lt hw hh
    rw [exec_grayUnpack]
    split
    case isTrue hsize =>
      have hn : 2 * n = w * h := by simpa [sizeOk] using hsize
      exact runLanes_ne_fault _ s f fun j u hj => .of_stopsFor (grayUnpackLane_stops (by omega))
    case isFalse => nofun
  | toifHdr x w h blen =>
    rw [exec_toifHdr]
    unfold toifHdr
    split
    · exact (NeverFaults.headerChecks _ _ s).finish f
    · nofun
  | reservedUnpackFmt g w h len | reservedOp3 g w h len => nofun

/-- Idle steps and steps under reset complete; every other step runs a decoded command. -/
theorem step_ne_fault (s : State) (f : Fault) : step s ≠ .fault f := by
  intro h
  rcases step_cases s with ⟨-, -, hstep⟩ | ⟨c, -, -, hstep⟩ | ⟨-, hstep⟩ | ⟨c, -, -, hstep⟩ <;> rw [hstep] at h
  · cases h
  · exact exec_ne_fault (decode_wf c) _ f (exec_eq_fault_of_transact h)
  · cases h
  · exact exec_ne_fault (decode_wf c) _ f (exec_eq_fault_of_transact (eq_fault_of_abandon h))

/-! ### Two blocks that agree on what the host presents -/

/-- `t` agrees with `s` on `IN`, on the room and on the first `n` bytes of `OUT`. -/
structure AgreeBelow (n : Nat) (s t : State) : Prop where
  inBuf   : t.inBuf = s.inBuf
  outRoom : t.outRoom = s.outRoom
  outBuf  : ∀ a < n, t.outBuf.read a = s.outBuf.read a

/-- `t` gives the host the same answer as `s`: the response, and the bytes of `OUT` below `out_len` (R10). -/
structure SameAnswer (s t : State) : Prop where
  response : t.response = s.response
  outBuf   : ∀ a < s.written, t.outBuf.read a = s.outBuf.read a

/-- Both bodies stop for the same reason, or both end in states related by `R`. -/
inductive SameStop (R : State → State → Prop) : Except Stop State → Except Stop State → Prop
  | ok {s t : State} (h : R s t) : SameStop R (.ok s) (.ok t)
  | error (e : Stop) : SameStop R (.error e) (.error e)

/-- Both transactions stop for the same reason, or both give the host the same answer. -/
inductive SameOutcome : Host.Outcome State Fault Refusal → Host.Outcome State Fault Refusal → Prop
  | next {s t : State} (h : SameAnswer s t) : SameOutcome (.next s) (.next t)
  | fault (f : Fault) : SameOutcome (.fault f) (.fault f)
  | refused (r : Refusal) : SameOutcome (.refused r) (.refused r)

theorem AgreeBelow.readIn {n : Nat} {s t : State} (h : AgreeBelow n s t) (i : Nat) : t.readIn i = s.readIn i := by
  simp only [State.readIn, h.inBuf]

theorem AgreeBelow.supplies {n : Nat} {s t : State} (h : AgreeBelow n s t) (m : Nat) : t.supplies m = s.supplies m := by
  simp only [State.supplies, h.inBuf]

/-- The same byte stored next makes one more byte of `OUT` agree. -/
theorem AgreeBelow.writeOut {n : Nat} {s t : State} (h : AgreeBelow n s t) (v : Byte) :
    SameStop (AgreeBelow (n + 1)) (s.writeOut n v) (t.writeOut n v) := by
  unfold State.writeOut
  rw [h.outRoom]
  split
  · split
    · refine .ok ⟨h.inBuf, rfl, fun a ha => ?_⟩
      by_cases hn : a = n
      · simp [hn]
      · simp [hn, h.outBuf a (by omega)]
    · exact .error _
  · exact .error _

namespace SameStop

variable {R Q : State → State → Prop}

theorem bind {x y : Except Stop State} {f g : State → Except Stop State} (hxy : SameStop R x y)
    (hfg : ∀ {s t}, R s t → SameStop Q (f s) (g t)) : SameStop Q (x >>= f) (y >>= g) := by
  cases hxy with
  | ok h => exact hfg h
  | error e => exact .error e

/-- The same byte is read on both sides. -/
theorem bind_left {α : Type} {x : Except Stop α} {f g : α → Except Stop State}
    (hfg : ∀ a, SameStop R (f a) (g a)) : SameStop R (x >>= f) (x >>= g) := by
  cases x with
  | ok a => exact hfg a
  | error e => exact .error e

/-- Where every round keeps the relation, so does the loop. -/
theorem forLanes {body : Nat → State → Except Stop State} {P : Nat → State → State → Prop}
    (hbody : ∀ {k s t}, P k s t → SameStop (P (k + 1)) (body k s) (body k t)) :
    ∀ {n k : Nat} {s t : State}, P k s t → SameStop (P (k + n)) (forLanes body k n s) (forLanes body k n t) := by
  intro n
  induction n with
  | zero => exact .ok
  | succ n ih =>
    intro k s t h
    rw [← Nat.add_assoc, Nat.add_right_comm]
    exact (hbody h).bind ih

theorem finish {x y : Except Stop State} (h : SameStop SameAnswer x y) : SameOutcome (finish x) (finish y) := by
  cases h with
  | ok h => exact .next h
  | error e =>
    cases e with
    | fault f => exact .fault f
    | refused r => exact .refused r

end SameStop

theorem SameAnswer.raise (s t : State) (e : BlockError) : SameAnswer (s.raise e) (t.raise e) :=
  ⟨rfl, fun _ ha => absurd ha (Nat.not_lt_zero _)⟩

theorem SameAnswer.doneHeader (s t : State) (f : PixFmt) (w h : Word16) (clen : BitVec 32) :
    SameAnswer (s.doneHeader f w h clen) (t.doneHeader f w h clen) :=
  ⟨rfl, fun _ ha => absurd ha (Nat.not_lt_zero _)⟩

/-- The port counts no more bytes than were stored. -/
theorem State.written_done_le (s : State) (n : Nat) : (s.done n).written ≤ n :=
  (BitVec.toNat_ofNat n 34).trans_le (Nat.mod_le n _)

theorem AgreeBelow.done {n : Nat} {s t : State} (h : AgreeBelow n s t) : SameAnswer (s.done n) (t.done n) :=
  ⟨rfl, fun a ha => h.outBuf a (ha.trans_le (s.written_done_le n))⟩

/-! ### The operations on two such blocks -/

theorem AgreeBelow.rgb565EncLane {k : Nat} {s t : State} (h : AgreeBelow (2 * k) s t) :
    SameStop (AgreeBelow (2 * (k + 1))) (rgb565EncLane k s) (rgb565EncLane k t) := by
  simp only [Machine.rgb565EncLane, h.readIn]
  exact .bind_left fun _ => .bind_left fun _ => .bind_left fun _ => (h.writeOut _).bind fun h1 => h1.writeOut _

theorem AgreeBelow.grayPackLane {j : Nat} {s t : State} (h : AgreeBelow j s t) :
    SameStop (AgreeBelow (j + 1)) (grayPackLane j s) (grayPackLane j t) := by
  simp only [Machine.grayPackLane, h.readIn]
  exact .bind_left fun _ => .bind_left fun _ => h.writeOut _

theorem AgreeBelow.rgb565DecLane {k : Nat} {s t : State} (h : AgreeBelow (3 * k) s t) :
    SameStop (AgreeBelow (3 * (k + 1))) (rgb565DecLane k s) (rgb565DecLane k t) := by
  simp only [Machine.rgb565DecLane, h.readIn]
  exact .bind_left fun _ => .bind_left fun _ =>
    (h.writeOut _).bind fun h1 => (h1.writeOut _).bind fun h2 => h2.writeOut _

theorem AgreeBelow.grayUnpackLane {j : Nat} {s t : State} (h : AgreeBelow (2 * j) s t) :
    SameStop (AgreeBelow (2 * (j + 1))) (grayUnpackLane j s) (grayUnpackLane j t) := by
  simp only [Machine.grayUnpackLane, h.readIn]
  exact .bind_left fun _ => (h.writeOut _).bind fun h1 => h1.writeOut _

/-- A loop whose round `k` starts at byte `pos k` of `OUT`, from blocks that agree on `IN` and on the room. -/
theorem runLanes_sameOutcome {body : Nat → State → Except Stop State} {pos : Nat → Nat}
    (hbody : ∀ {k s t}, AgreeBelow (pos k) s t → SameStop (AgreeBelow (pos (k + 1))) (body k s) (body k t))
    {s t : State} (h : AgreeBelow (pos 0) s t) (n : Nat) :
    SameOutcome (runLanes body n (pos n) s) (runLanes body n (pos n) t) := by
  have hloop := SameStop.forLanes (P := fun k => AgreeBelow (pos k)) hbody (n := n) h
  rw [Nat.zero_add] at hloop
  exact (hloop.bind fun hn => .ok hn.done).finish

theorem AgreeBelow.headerFields {n : Nat} {s t : State} (h : AgreeBelow n s t) (strict : Bool) (f : PixFmt)
    (blen : Nat) : SameStop SameAnswer (headerFields strict f blen s) (headerFields strict f blen t) := by
  simp only [Machine.headerFields, h.readIn]
  refine .bind_left fun _ => .bind_left fun _ => .bind_left fun _ => .bind_left fun _ => .bind_left fun _ =>
    .bind_left fun _ => .bind_left fun _ => .bind_left fun _ => .ok ?_
  split
  · exact .raise ..
  · exact .doneHeader ..

theorem AgreeBelow.headerChecks {n : Nat} {s t : State} (h : AgreeBelow n s t) (strict : Bool) (blen : Nat) :
    SameStop SameAnswer (headerChecks strict blen s) (headerChecks strict blen t) := by
  simp only [Machine.headerChecks, h.readIn]
  split
  · exact .ok (.raise ..)
  · refine .bind_left fun _ => .bind_left fun _ => .bind_left fun _ => .bind_left fun _ => ?_
    split
    · exact .ok (.raise ..)
    · split
      · exact .ok (.raise ..)
      · exact h.headerFields ..

/-- An operation reads `IN` and the room of `OUT`, and nothing else of the state (R10). -/
theorem AgreeBelow.exec {s t : State} (h : AgreeBelow 0 s t) (i : Instr) : SameOutcome (exec i s) (exec i t) := by
  cases i with
  | rgb565Enc w h' len => exact runLanes_sameOutcome (pos := (2 * ·)) AgreeBelow.rgb565EncLane h _
  | grayPack w h' len =>
    simp only [exec_grayPack]
    split
    · exact .next (.raise ..)
    · exact runLanes_sameOutcome (pos := id) AgreeBelow.grayPackLane h _
  | packUnsupported f w h' len => exact .next (.raise ..)
  | rgb565Dec w h' n =>
    simp only [exec_rgb565Dec]
    split
    · exact runLanes_sameOutcome (pos := (3 * ·)) AgreeBelow.rgb565DecLane h _
    · exact .next (.raise ..)
  | grayUnpack w h' n =>
    simp only [exec_grayUnpack]
    split
    · exact runLanes_sameOutcome (pos := (2 * ·)) AgreeBelow.grayUnpackLane h _
    · exact .next (.raise ..)
  | toifHdr x w h' blen =>
    simp only [exec_toifHdr, toifHdr, h.supplies]
    split
    · exact (h.headerChecks ..).finish
    · exact .refused _
  | reservedUnpackFmt f w h' len | reservedOp3 f w h' len => exact .refused _

theorem AgreeBelow.accept {n : Nat} {s t : State} (h : AgreeBelow n s t) : AgreeBelow n s.accept t.accept :=
  ⟨h.inBuf, h.outRoom, h.outBuf⟩

/-- Two transactions with the same command, input, room and conduct of the host. -/
theorem AgreeBelow.transact {s t : State} (h : AgreeBelow 0 s t) (hb : t.hostBreach = s.hostBreach) (c : Command) :
    SameOutcome (s.transact Machine.exec c) (t.transact Machine.exec c) := by
  unfold State.transact
  rw [hb]
  split
  · exact .refused _
  · exact h.accept.exec _

theorem SameOutcome.next_right {s : State} {o : Host.Outcome State Fault Refusal} (h : SameOutcome (.next s) o) :
    ∃ t, o = .next t ∧ SameAnswer s t := by
  cases h with
  | next h => exact ⟨_, rfl, h⟩

theorem SameOutcome.refused_right {r : Refusal} {o : Host.Outcome State Fault Refusal}
    (h : SameOutcome (.refused r) o) : o = .refused r := by
  cases h
  rfl

end Sys2Proof.Machine

/-! ### Numbers on the command port -/

namespace Sys2Proof

/-- The numbers of a command make that command (R14). -/
theorem Command.ofNats_toNat (c : Command) : Command.ofNats c.cmd.toNat c.w.toNat c.h.toNat c.len.toNat = .ok c := by
  have hcmd := c.cmd.isLt
  have hw := c.w.isLt
  have hh := c.h.isLt
  have hlen := c.len.isLt
  simp only [Command.ofNats, Nat.not_le.2 hcmd, Nat.not_le.2 hw, Nat.not_le.2 hh, Nat.not_le.2 hlen, if_false,
    BitVec.ofNat_toNat, BitVec.setWidth_eq]

theorem decodeNats_of_ok {cmd w h len : Nat} {c : Command} (hc : Command.ofNats cmd w h len = .ok c) :
    decodeNats cmd w h len = .ok (decode c) := by
  rw [decodeNats, hc]

theorem decodeNats_of_error {cmd w h len : Nat} {e : DecodeReject} (he : Command.ofNats cmd w h len = .error e) :
    decodeNats cmd w h len = .error e := by
  rw [decodeNats, he]

section
variable {cmd w h len : Nat}

theorem Command.ofNats_cmdTooWide (hcmd : 2 ^ 4 ≤ cmd) : Command.ofNats cmd w h len = .error .cmdTooWide :=
  if_pos hcmd

theorem Command.ofNats_widthTooWide (hcmd : cmd < 2 ^ 4) (hw : 2 ^ 16 ≤ w) :
    Command.ofNats cmd w h len = .error .widthTooWide :=
  (if_neg (Nat.not_le.2 hcmd)).trans (if_pos hw)

theorem Command.ofNats_heightTooWide (hcmd : cmd < 2 ^ 4) (hw : w < 2 ^ 16) (hh : 2 ^ 16 ≤ h) :
    Command.ofNats cmd w h len = .error .heightTooWide :=
  (if_neg (Nat.not_le.2 hcmd)).trans ((if_neg (Nat.not_le.2 hw)).trans (if_pos hh))

theorem Command.ofNats_lenTooWide (hcmd : cmd < 2 ^ 4) (hw : w < 2 ^ 16) (hh : h < 2 ^ 16) (hlen : 2 ^ 34 ≤ len) :
    Command.ofNats cmd w h len = .error .lenTooWide :=
  (if_neg (Nat.not_le.2 hcmd)).trans ((if_neg (Nat.not_le.2 hw)).trans ((if_neg (Nat.not_le.2 hh)).trans (if_pos hlen)))

end

end Sys2Proof

/-! ### Ignored operands, and bitmaps with no pixel -/

namespace Sys2Proof.Machine

/-- `PACK` looks at the command word, `w` and `h` (R15). -/
theorem exec_decode_pack {cmd : BitVec 4} (hop : opField cmd = 0b00#2) (w h : Word16) (len len' : BitVec 34)
    (s : State) : exec (decode ⟨cmd, w, h, len'⟩) s = exec (decode ⟨cmd, w, h, len⟩) s := by
  simp only [decode, hop, if_true]
  cases fmtOfTag (fmtField cmd) with
  | none => rfl
  | some f => cases f <;> rfl

/-- `HDR` looks at `len` alone (R15). -/
theorem exec_decode_hdr {c : Command} (hop : opField c.cmd = 0b10#2) (s : State) :
    exec (decode c) s = toifHdr Config.strictTrailing c.len.toNat s := by
  have hdec : decode c = .toifHdr (fmtField c.cmd).toNat c.w.toNat c.h.toNat c.len.toNat := by
    simp [decode, hop]
  rw [hdec, exec_toifHdr]

/-- With no pixel the one length that passes the size check is 0, whatever the format (R79). -/
theorem sizeOk_of_no_pixel {w h : Nat} (hp : w * h = 0) (f : PixFmt) (n : Nat) : sizeOk f w h n = (n == 0) := by
  refine Bool.eq_iff_iff.2 ?_
  cases f with
  | rgb => simp [sizeOk, hp]
  | gray => simp [sizeOk, hp]

/-- With no pixel nothing is read or written, in any of the four operations, and the length 0 is the right one (R20). -/
theorem exec_of_no_pixel {w h : Nat} (hp : w * h = 0) (len : Nat) (s : State) :
    exec (.rgb565Enc w h len) s = .next (s.done 0) ∧
    (w % 2 = 0 → exec (.grayPack w h len) s = .next (s.done 0)) ∧
    exec (.rgb565Dec w h 0) s = .next (s.done 0) ∧
    exec (.grayUnpack w h 0) s = .next (s.done 0) := by
  refine ⟨?_, fun hw => ?_, ?_, ?_⟩
  · simp [exec_rgb565Enc, hp]
  · simp [exec_grayPack, oddWidth, hw, hp]
  · simp [exec_rgb565Dec, sizeOk_of_no_pixel, hp]
  · simp [exec_grayUnpack, sizeOk_of_no_pixel, hp]

/-- With no pixel every other length is a wrong one (R86, R92). -/
theorem exec_unpack_of_no_pixel {w h len : Nat} (hp : w * h = 0) (hlen : len ≠ 0) (s : State) :
    exec (.rgb565Dec w h len) s = .next (s.raise .sizeMismatch) ∧
    exec (.grayUnpack w h len) s = .next (s.raise .sizeMismatch) := by
  simp [exec_rgb565Dec, exec_grayUnpack, sizeOk_of_no_pixel, hp, hlen]

end Sys2Proof.Machine

/-! ### The statements -/

open Sys2Proof Sys2Proof.Machine

/-- Settles O53: a completed operation has raised an error, stored bytes in `OUT` or answered a header, and each keeps
the invariant; so do the steps of reset. -/
theorem stepKeepsInvariant : Obligations.StepKeepsInvariant := fun _ _ hs h => inv_of_step hs h

/-- Settles O52: the operands of a decoded command fit the port, so every index of its operation is in the index
space. -/
theorem noStepFaults : Obligations.NoStepFaults := step_ne_fault

/-- Settles O56: run side by side, the two transactions read the same bytes, store the same bytes and stop alike. -/
theorem transactionsAreStateless : Obligations.TransactionsAreStateless := by
  intro s1 s2 hl1 hl2 hc1 hc hin hroom hb
  obtain ⟨c, hc1⟩ := Option.isSome_iff_exists.1 hc1
  have hagree : AgreeBelow 0 s1 s2 := ⟨hin, hroom, fun _ ha => absurd ha (Nat.not_lt_zero _)⟩
  have hsame := hagree.transact hb c
  rw [step_of_command hl1 hc1, step_of_command hl2 (hc.trans hc1)]
  constructor
  · intro t1 h1
    obtain ⟨t2, h2, hans⟩ := (h1 ▸ hsame).next_right
    exact ⟨t2, h2, hans.response, hans.outBuf⟩
  · intro q h1
    exact (h1 ▸ hsame).refused_right

/-- Settles O6: the checks are made in the order of the fields, and a command's own numbers pass them all. -/
theorem numbersDecodeOrAreRejected : Obligations.NumbersDecodeOrAreRejected :=
  ⟨fun c => decodeNats_of_ok c.ofNats_toNat,
    fun _ _ _ _ hcmd => decodeNats_of_error (Command.ofNats_cmdTooWide hcmd),
    fun _ _ _ _ hcmd hw => decodeNats_of_error (Command.ofNats_widthTooWide hcmd hw),
    fun _ _ _ _ hcmd hw hh => decodeNats_of_error (Command.ofNats_heightTooWide hcmd hw hh),
    fun _ _ _ _ hcmd hw hh hlen => decodeNats_of_error (Command.ofNats_lenTooWide hcmd hw hh hlen)⟩

/-- Settles O32: `len` reaches no meaning of `PACK`, and only `len` reaches the meaning of `HDR`. -/
theorem ignoredOperandsHaveNoEffect : Obligations.IgnoredOperandsHaveNoEffect := by
  intro c d s
  constructor
  · obtain ⟨cmd, w, h, len⟩ := c
    obtain ⟨cmd', w', h', len'⟩ := d
    rintro hop rfl rfl rfl
    exact exec_decode_pack hop _ _ _ _ s
  · intro hc hd hlen
    rw [exec_decode_hdr hd, exec_decode_hdr hc, hlen]

/-- Settles O33: no round of any loop is run, and 0 is the only length that passes the size check. -/
theorem zeroPixelsOrdinary : Obligations.ZeroPixelsOrdinary := by
  intro w h len s hp
  obtain ⟨henc, hpack, hdec, hunpack⟩ := exec_of_no_pixel hp len s
  exact ⟨henc, hpack, hdec, hunpack, fun hlen => exec_unpack_of_no_pixel hp hlen s⟩

/-- Settles O47: reset is released and nothing is breached, so the step is the transaction and the transaction is the
operation on the state with the port emptied. -/
theorem stepRunsDecodedCommand : Obligations.StepRunsDecodedCommand := fun _ c hl hc hb =>
  (step_of_command hl hc).trans (transact_of_no_breach exec c hb)

/-- Settles O54: both buffers are empty, the port is empty and no command is presented. -/
theorem resetHasInvariant : Obligations.ResetHasInvariant :=
  ⟨⟨Memory.reset_wf.1, Memory.reset_wf.2, nofun⟩, rfl, rfl⟩

end

section
/-! Proofs of spec/20_memory.md: the bytes of a big-endian word, the frame of every operation, which bytes of `OUT` a
loop stores and where a round's bytes stand in the end, the row-major layouts, and repeating a transaction. -/

namespace Sys2Proof.Machine

/-! ### Big-endian words (R31, R51) -/

/-- The two byte orders differ in which byte comes first. -/
theorem be16_eq_le16 (a b : Byte) : be16 a b = le16 b a := BitVec.or_comm _ _

/-- The value of `be16`: the first byte counts 256s. -/
theorem toNat_be16 (a b : Byte) : (be16 a b).toNat = 2 ^ 8 * a.toNat + b.toNat := by
  rw [be16_eq_le16, toNat_le16, Nat.add_comm]

theorem toNat_hiByte (v : Word16) : (hiByte v).toNat = v.toNat / 2 ^ 8 := by
  have hv := v.isLt
  rw [hiByte, BitVec.toNat_setWidth, BitVec.toNat_ushiftRight, Nat.shiftRight_eq_div_pow, Nat.mod_eq_of_lt (by omega)]

theorem toNat_loByte (v : Word16) : (loByte v).toNat = v.toNat % 2 ^ 8 := BitVec.toNat_setWidth 8 v

theorem hiByte_be16 (a b : Byte) : hiByte (be16 a b) = a := by
  have hb := b.isLt
  apply BitVec.eq_of_toNat_eq
  rw [toNat_hiByte, toNat_be16]
  omega

theorem loByte_be16 (a b : Byte) : loByte (be16 a b) = b := by
  have hb := b.isLt
  apply BitVec.eq_of_toNat_eq
  rw [toNat_loByte, toNat_be16]
  omega

theorem be16_hiByte_loByte (v : Word16) : be16 (hiByte v) (loByte v) = v := by
  apply BitVec.eq_of_toNat_eq
  rw [toNat_be16, toNat_hiByte, toNat_loByte, Nat.div_add_mod]

/-! ### The frame of every operation -/

/-- However a transaction ends, `OUT` and the response port are all that it changes (R24, R35). -/
theorem Ended.sameButOut {s t : State} (h : Ended s t) : s.sameButOut t := by
  cases h with
  | raised e he => rfl
  | stored hu n =>
    obtain ⟨m, rfl, -⟩ := hu
    rfl
  | header f w h clen => rfl

/-! ### Which bytes of `OUT` are stored -/

/-- From `s` to `t` no byte is stored but at the indices `lo .. hi - 1` of `OUT`. -/
structure StoresWithin (lo hi : Nat) (s t : State) : Prop where
  le    : lo ≤ hi
  inBuf : t.inBuf = s.inBuf
  read  : ∀ a, a < lo ∨ hi ≤ a → t.outBuf.read a = s.outBuf.read a

namespace StoresWithin

theorem refl (lo : Nat) (s : State) : StoresWithin lo lo s s := ⟨le_rfl, rfl, fun _ _ => rfl⟩

theorem trans {lo mid hi : Nat} {s t u : State} (hst : StoresWithin lo mid s t) (htu : StoresWithin mid hi t u) :
    StoresWithin lo hi s u where
  le := hst.le.trans htu.le
  inBuf := htu.inBuf.trans hst.inBuf
  read a ha := by
    have hlo := hst.le
    have hhi := htu.le
    rw [htu.read a (by omega), hst.read a (by omega)]

theorem of_write (s : State) (i : Nat) (v : Byte) :
    StoresWithin i (i + 1) s { s with outBuf := s.outBuf.write i v } :=
  ⟨Nat.le_succ i, rfl, fun _ ha => Memory.read_write_other _ _ (by omega)⟩

theorem of_rgb565EncLane {k : Nat} {s t : State} (h : rgb565EncLane k s = .ok t) :
    StoresWithin (2 * k) (2 * (k + 1)) s t := by
  obtain ⟨r, g, b, -, -, -, -, -, rfl⟩ := rgb565EncLane_eq_ok.1 h
  exact (of_write s (2 * k) _).trans (of_write _ (2 * k + 1) _)

theorem of_grayPackLane {j : Nat} {s t : State} (h : grayPackLane j s = .ok t) : StoresWithin j (j + 1) s t := by
  obtain ⟨l1, l2, -, -, -, -, rfl⟩ := grayPackLane_eq_ok.1 h
  exact of_write s j _

theorem of_rgb565DecLane {k : Nat} {s t : State} (h : rgb565DecLane k s = .ok t) :
    StoresWithin (3 * k) (3 * (k + 1)) s t := by
  obtain ⟨hi, lo, -, -, -, -, rfl⟩ := rgb565DecLane_eq_ok.1 h
  exact ((of_write s (3 * k) _).trans (of_write _ (3 * k + 1) _)).trans (of_write _ (3 * k + 2) _)

theorem of_grayUnpackLane {j : Nat} {s t : State} (h : grayUnpackLane j s = .ok t) :
    StoresWithin (2 * j) (2 * (j + 1)) s t := by
  obtain ⟨b, -, -, -, rfl⟩ := grayUnpackLane_eq_ok.1 h
  exact (of_write s (2 * j) _).trans (of_write _ (2 * j + 1) _)

end StoresWithin

/-- A loop of `m + n` rounds is one of `m` rounds and then one of `n`. -/
theorem forLanes_add (body : Nat → State → Except Stop State) (m n : Nat) :
    ∀ (k : Nat) (s : State), forLanes body k (m + n) s = forLanes body k m s >>= forLanes body (k + m) n := by
  induction m with
  | zero =>
    intro k s
    rw [Nat.zero_add]
    rfl
  | succ m ih =>
    intro k s
    rw [Nat.add_right_comm, forLanes, forLanes]
    cases body k s with
    | error e => rfl
    | ok u => rw [ok_bind, ok_bind, ih, Nat.add_assoc, Nat.add_comm 1 m]

section
variable {body : Nat → State → Except Stop State} {pos : Nat → Nat}
  (hbody : ∀ {k s t}, body k s = .ok t → StoresWithin (pos k) (pos (k + 1)) s t)
include hbody

/-- A loop whose round `k` stores from `pos k` up to `pos (k + 1)`. -/
theorem StoresWithin.of_forLanes {k n : Nat} {s t : State} (h : forLanes body k n s = .ok t) :
    StoresWithin (pos k) (pos (k + n)) s t :=
  forLanes_keeps (fun j u => StoresWithin (pos k) (pos j) s u) (fun _ _ _ hu hs => hs.trans (hbody hu)) h
    (refl (pos k) s)

/-- What round `k` of a loop stored stands in `OUT` at the end, and the round read the `IN` of the beginning: later
rounds store above it, and none stores in `IN`. -/
theorem forLanes_round {n : Nat} {s t : State} (h : forLanes body 0 n s = .ok t) {k : Nat} (hk : k < n) :
    ∃ u v, body k u = .ok v ∧ u.inBuf = s.inBuf ∧ ∀ a < pos (k + 1), t.outBuf.read a = v.outBuf.read a := by
  obtain ⟨m, rfl⟩ := Nat.exists_eq_add_of_lt hk
  rw [Nat.add_assoc, forLanes_add, Nat.zero_add, bind_eq_ok] at h
  obtain ⟨u, hu, h⟩ := h
  obtain ⟨v, hv, ht⟩ := bind_eq_ok.1 h
  exact ⟨u, v, hv, (StoresWithin.of_forLanes hbody hu).inBuf,
    fun a ha => (StoresWithin.of_forLanes hbody ht).read a (.inl ha)⟩

/-- The bytes below the count are all that the operation stores. -/
theorem stores_of_runLanes {n count : Nat} {s t : State} (h : runLanes body n count s = .next t) :
    ∃ u, StoresWithin (pos 0) (pos n) s u ∧ t = u.done count := by
  obtain ⟨u, hu, rfl⟩ := runLanes_eq_next.1 h
  have hst := StoresWithin.of_forLanes hbody hu
  rw [Nat.zero_add] at hst
  exact ⟨u, hst, rfl⟩

end

/-! ### What a completed operation has stored -/

/-- `t` is `s` with a response that counts no byte of `OUT`: an error, or the answer to a header. -/
def State.OnlyResponds (s t : State) : Prop := ∃ r : Response, r.outLen = 0 ∧ t = { s with response := some r }

namespace State.OnlyResponds

theorem raise (s : State) (e : BlockError) : s.OnlyResponds (s.raise e) := ⟨errorResponse e, rfl, rfl⟩

theorem doneHeader (s : State) (f : PixFmt) (w h : Word16) (clen : BitVec 32) :
    s.OnlyResponds (s.doneHeader f w h clen) := ⟨headerResponse f w h clen, rfl, rfl⟩

theorem of_headerFields {strict : Bool} {f : PixFmt} {blen : Nat} {s t : State}
    (h : headerFields strict f blen s = .ok t) : s.OnlyResponds t := by
  simp only [headerFields, bind_eq_ok] at h
  obtain ⟨b4, -, b5, -, b6, -, b7, -, b8, -, b9, -, b10, -, b11, -, h⟩ := h
  cases h
  split
  · exact raise ..
  · exact doneHeader ..

theorem of_headerChecks {strict : Bool} {blen : Nat} {s t : State}
    (h : headerChecks strict blen s = .ok t) : s.OnlyResponds t := by
  unfold headerChecks at h
  split at h
  · cases h
    exact raise ..
  · simp only [bind_eq_ok] at h
    obtain ⟨b0, -, b1, -, b2, -, b3, -, h⟩ := h
    split at h
    · cases h
      exact raise ..
    · split at h
      · cases h
        exact raise ..
      · exact of_headerFields h

theorem of_toifHdr {strict : Bool} {blen : Nat} {s t : State} (h : toifHdr strict blen s = .next t) :
    s.OnlyResponds t := by
  unfold toifHdr at h
  split at h
  · exact of_headerChecks (finish_eq_next.1 h)
  · cases h

end State.OnlyResponds

/-- An operation that completes either stores nothing and counts nothing, or stores within the bytes of `OUT` it needs
and counts them all (R25). -/
theorem stores_of_exec {i : Instr} {s t : State} (h : exec i s = .next t) :
    s.OnlyResponds t ∨ ∃ u, StoresWithin 0 (roomNeeded i) s u ∧ t = u.done (roomNeeded i) := by
  cases i with
  | rgb565Enc w h' len => exact .inr (stores_of_runLanes (pos := (2 * ·)) StoresWithin.of_rgb565EncLane h)
  | grayPack w h' len =>
    rw [exec_grayPack] at h
    split at h
    case isTrue =>
      cases h
      exact .inl (.raise ..)
    case isFalse hw =>
      rw [roomNeeded, if_neg hw]
      exact .inr (stores_of_runLanes (pos := id) StoresWithin.of_grayPackLane h)
  | packUnsupported f w h' len =>
    cases h
    exact .inl (.raise ..)
  | rgb565Dec w h' n =>
    rw [exec_rgb565Dec] at h
    split at h
    case isTrue hsize =>
      rw [roomNeeded, if_pos hsize]
      exact .inr (stores_of_runLanes (pos := (3 * ·)) StoresWithin.of_rgb565DecLane h)
    case isFalse =>
      cases h
      exact .inl (.raise ..)
  | grayUnpack w h' n =>
    rw [exec_grayUnpack] at h
    split at h
    case isTrue hsize =>
      have hn : 2 * n = w * h' := by simpa [sizeOk] using hsize
      rw [roomNeeded, if_pos hsize, ← hn]
      exact .inr (stores_of_runLanes (pos := (2 * ·)) StoresWithin.of_grayUnpackLane h)
    case isFalse =>
      cases h
      exact .inl (.raise ..)
  | toifHdr x w h' blen => exact .inl (.of_toifHdr h)
  | reservedUnpackFmt f w h' len | reservedOp3 f w h' len => cases h

/-- A count below `2 ^ 34` stands on the port as it is (R8). -/
theorem State.written_done (s : State) {n : Nat} (hn : n < 2 ^ 34) : (s.done n).written = n :=
  (BitVec.toNat_ofNat n 34).trans (Nat.mod_eq_of_lt hn)

/-- From the count on the port on, `OUT` is as it was before the operation. -/
theorem read_of_exec {i : Instr} (hi : i.wf = true) {s t : State} (h : exec i s = .next t) {a : Nat}
    (ha : t.written ≤ a) : t.outBuf.read a = s.outBuf.read a := by
  rcases stores_of_exec h with ⟨r, -, rfl⟩ | ⟨u, hu, rfl⟩
  · rfl
  · rw [State.written_done u (counts_lt_of_wf hi).2] at ha
    exact hu.read a (.inr ha)

/-! ### A transaction that completes -/

/-- With reset released, the step of a presented command completes exactly when the host breaks nothing and the decoded
operation completes. -/
theorem step_eq_next_of_command {s t : State} {c : Command} (hl : s.resetLine = .released) (hc : s.command = some c) :
    step s = .next t ↔ s.hostBreach = none ∧ exec (decode c) s.accept = .next t := by
  rw [step_of_command hl hc, transact_eq_next]

/-! ### The row-major layouts (R26 to R29) -/

/-- The index of a pixel of the bitmap is below the number of its pixels. -/
theorem pixelIndex_lt {w h x y : Nat} (hx : x < w) (hy : y < h) : y * w + x < w * h :=
  calc y * w + x < y * w + w := Nat.add_lt_add_left hx _
    _ = (y + 1) * w := (Nat.succ_mul y w).symm
    _ ≤ h * w := Nat.mul_le_mul_right w hy
    _ = w * h := Nat.mul_comm h w

/-- The word of pixel `k` stands at `2k` of `OUT`, high byte first. -/
theorem read_of_exec_rgb565Enc {w h len : Nat} {s t : State} (hex : exec (.rgb565Enc w h len) s = .next t) {k : Nat}
    (hk : k < w * h) {r g b : Byte} (hr : s.inBuf.read (3 * k) = some r) (hg : s.inBuf.read (3 * k + 1) = some g)
    (hb : s.inBuf.read (3 * k + 2) = some b) :
    t.outBuf.read (2 * k) = some (hiByte (rgb565Pack ⟨r, g, b⟩)) ∧
    t.outBuf.read (2 * k + 1) = some (loByte (rgb565Pack ⟨r, g, b⟩)) := by
  obtain ⟨t', hloop, rfl⟩ := runLanes_eq_next.1 hex
  obtain ⟨u, v, hround, hin, hout⟩ := forLanes_round (pos := (2 * ·)) StoresWithin.of_rgb565EncLane hloop hk
  obtain ⟨r', g', b', hr', hg', hb', -, -, rfl⟩ := rgb565EncLane_eq_ok.1 hround
  rw [hin] at hr' hg' hb'
  cases hr.symm.trans hr'
  cases hg.symm.trans hg'
  cases hb.symm.trans hb'
  rw [State.done_outBuf, hout (2 * k) (by omega), hout (2 * k + 1) (by omega)]
  simp

/-- Pair `j` stands packed at `j` of `OUT`. -/
theorem read_of_exec_grayPack {w h len : Nat} {s t : State} (hw : w % 2 = 0)
    (hex : exec (.grayPack w h len) s = .next t) {j : Nat} (hj : j < w * h / 2) {l1 l2 : Byte}
    (h1 : s.inBuf.read (2 * j) = some l1) (h2 : s.inBuf.read (2 * j + 1) = some l2) :
    t.outBuf.read j = some (grayPackPair ⟨l1, l2⟩) := by
  rw [exec_grayPack, if_neg (by simp [oddWidth, hw])] at hex
  obtain ⟨t', hloop, rfl⟩ := runLanes_eq_next.1 hex
  obtain ⟨u, v, hround, hin, hout⟩ := forLanes_round (pos := id) StoresWithin.of_grayPackLane hloop hj
  obtain ⟨l1', l2', h1', h2', -, -, rfl⟩ := grayPackLane_eq_ok.1 hround
  rw [hin] at h1' h2'
  cases h1.symm.trans h1'
  cases h2.symm.trans h2'
  rw [State.done_outBuf, hout j (Nat.lt_succ_self j)]
  exact Memory.read_write_same ..

end Sys2Proof.Machine

/-! ### The statements -/

open Sys2Proof Sys2Proof.Machine

/-- Settles O34: the pixel in column `x`, row `y` is round `y w + x` of the loop, and what that round stored stays. -/
theorem rgbRowMajorLayout : Obligations.RgbRowMajorLayout :=
  fun _ _ _ _ _ _ _ _ _ _ _ hex hx hy hr hg hb => read_of_exec_rgb565Enc hex (pixelIndex_lt hx hy) hr hg hb

/-- Settles O35: the width is even, so that the row starts at an even index and columns `2i` and `2i + 1` of row `y` are
pair `y w / 2 + i` of the bitmap. -/
theorem grayRowMajorLayout : Obligations.GrayRowMajorLayout := by
  intro w h len s t i y l1 l2 _ hw hex hi hy h1 h2
  have hlt := pixelIndex_lt hi hy
  have hrow : y * w % 2 = 0 := by rw [Nat.mul_mod, hw, Nat.mul_zero, Nat.zero_mod]
  have hpair : y * w + 2 * i = 2 * (y * w / 2 + i) := by omega
  rw [hpair] at h1
  rw [← Nat.add_assoc, hpair] at h2
  exact read_of_exec_grayPack hw hex (by omega) h1 h2

/-- Settles O36: in each way an operation can end, `OUT` and the response are all that has changed. -/
theorem operationsFrame : Obligations.OperationsFrame := fun _ _ _ h => (ended_of_exec h).sameButOut

/-- Settles O57: the second transaction sees the same `IN` and room, so it gives the same answer, whose bytes are those
below `out_len`; from `out_len` on it leaves `OUT` as the first left it. -/
theorem transactionIsIdempotent : Obligations.TransactionIsIdempotent := by
  intro s t c hl hc hstep
  obtain ⟨hb, hex⟩ := (step_eq_next_of_command hl hc).1 hstep
  have hframe : s.accept.sameButOut t := (ended_of_exec hex).sameButOut
  have hl' : t.resetLine = .released := by rw [hframe]; exact hl
  have hb' : t.hostBreach = none := by rw [hframe]; exact hb
  have hagree : AgreeBelow 0 s.accept { t with command := none } :=
    ⟨by rw [hframe], by rw [hframe], fun _ ha => absurd ha (Nat.not_lt_zero _)⟩
  obtain ⟨u, hu, hans⟩ := (hex ▸ hagree.exec (decode c)).next_right
  refine ⟨u, (step_eq_next_of_command (s := { t with command := some c }) hl' rfl).2 ⟨hb', hu⟩, hans.response,
    fun a => ?_⟩
  rcases Nat.lt_or_ge a t.written with ha | ha
  · exact hans.outBuf a ha
  · have hwritten : u.written = t.written := by simp only [State.written, hans.response]
    exact read_of_exec (decode_wf c) hu (hwritten ▸ ha)

/-- Settles O14: by the values of the assembled words and of a word's two bytes. -/
theorem byteAssemblyValues : Obligations.ByteAssemblyValues :=
  ⟨toNat_le16, toNat_le32, toNat_be16, fun a b => ⟨hiByte_be16 a b, loByte_be16 a b⟩, be16_hiByte_loByte⟩

end

section
/-! Proofs of spec/30_encoding.md: the dispatch table of R44 as a relation, the two directions of the encoding through
it, the opcode table, the pseudo-operations of R57, the refusals an operation can give, the magics and the error
codes. -/

namespace Sys2Proof

/-! ### The dispatch table (R41 to R44) -/

/-- The dispatch table of R44, one constructor per row: a command, its word spelt as in the `encoding` column of
spec/opcode_table.json with the open bits of the row as a vector, beside the instruction it stands for. `decode` and
`encode` are its two readings (`DispatchRow.decode_eq`, `DispatchRow.encode_eq`). -/
inductive DispatchRow : Command → Instr → Prop where
  | rgb565Enc (w h : Word16) (len : BitVec 34) :
    DispatchRow ⟨0b0000#4, w, h, len⟩ (.rgb565Enc w.toNat h.toNat len.toNat)
  | grayPack (w h : Word16) (len : BitVec 34) :
    DispatchRow ⟨0b0001#4, w, h, len⟩ (.grayPack w.toNat h.toNat len.toNat)
  | packUnsupported (f : BitVec 1) (w h : Word16) (len : BitVec 34) :
    DispatchRow ⟨0b001#3 ++ f, w, h, len⟩ (.packUnsupported f.toNat w.toNat h.toNat len.toNat)
  | rgb565Dec (w h : Word16) (len : BitVec 34) :
    DispatchRow ⟨0b0100#4, w, h, len⟩ (.rgb565Dec w.toNat h.toNat len.toNat)
  | grayUnpack (w h : Word16) (len : BitVec 34) :
    DispatchRow ⟨0b0101#4, w, h, len⟩ (.grayUnpack w.toNat h.toNat len.toNat)
  | reservedUnpackFmt (f : BitVec 1) (w h : Word16) (len : BitVec 34) :
    DispatchRow ⟨0b011#3 ++ f, w, h, len⟩ (.reservedUnpackFmt f.toNat w.toNat h.toNat len.toNat)
  | toifHdr (x : BitVec 2) (w h : Word16) (len : BitVec 34) :
    DispatchRow ⟨0b10#2 ++ x, w, h, len⟩ (.toifHdr x.toNat w.toNat h.toNat len.toNat)
  | reservedOp3 (x : BitVec 2) (w h : Word16) (len : BitVec 34) :
    DispatchRow ⟨0b11#2 ++ x, w, h, len⟩ (.reservedOp3 x.toNat w.toNat h.toNat len.toNat)

@[simp] theorem opField_append (op tag : BitVec 2) : opField (op ++ tag) = op := by
  revert op tag
  decide

@[simp] theorem fmtField_append (op tag : BitVec 2) : fmtField (op ++ tag) = tag := by
  revert op tag
  decide

namespace DispatchRow

/-- The decoder follows the table. -/
theorem decode_eq {c : Command} {i : Instr} (hrow : DispatchRow c i) : decode c = i := by
  cases hrow with
  | rgb565Enc w h len | grayPack w h len | rgb565Dec w h len | grayUnpack w h len =>
    simp [decode, opField, fmtField, fmtOfTag]
  | packUnsupported f w h len | reservedUnpackFmt f w h len =>
    rcases BitVec.eq_zero_or_eq_one f with rfl | rfl <;> simp [decode, opField, fmtField, fmtOfTag]
  | toifHdr x w h len | reservedOp3 x w h len => simp [decode]

/-- The encoder reads the table backwards. -/
theorem encode_eq {c : Command} {i : Instr} (hrow : DispatchRow c i) : encode i = c := by
  cases hrow <;> simp [encode, encodeWord, Instr.width, Instr.height, Instr.count]

/-- The table holds every command: its 16 words in order. -/
theorem exists_of_command (c : Command) : ∃ i, DispatchRow c i := by
  obtain ⟨cmd, w, h, len⟩ := c
  rcases cmd_cases cmd with
    rfl | rfl | rfl | rfl | rfl | rfl | rfl | rfl | rfl | rfl | rfl | rfl | rfl | rfl | rfl | rfl
  · exact ⟨_, rgb565Enc w h len⟩
  · exact ⟨_, grayPack w h len⟩
  · exact ⟨_, packUnsupported 0 w h len⟩
  · exact ⟨_, packUnsupported 1 w h len⟩
  · exact ⟨_, rgb565Dec w h len⟩
  · exact ⟨_, grayUnpack w h len⟩
  · exact ⟨_, reservedUnpackFmt 0 w h len⟩
  · exact ⟨_, reservedUnpackFmt 1 w h len⟩
  · exact ⟨_, toifHdr 0 w h len⟩
  · exact ⟨_, toifHdr 1 w h len⟩
  · exact ⟨_, toifHdr 2 w h len⟩
  · exact ⟨_, toifHdr 3 w h len⟩
  · exact ⟨_, reservedOp3 0 w h len⟩
  · exact ⟨_, reservedOp3 1 w h len⟩
  · exact ⟨_, reservedOp3 2 w h len⟩
  · exact ⟨_, reservedOp3 3 w h len⟩

/-- A command stands beside its decoded instruction. -/
theorem row_decode (c : Command) : DispatchRow c (decode c) := by
  obtain ⟨i, hrow⟩ := exists_of_command c
  rwa [hrow.decode_eq]

/-- Operands that fit the port are the values of its fields. -/
theorem exists_operands {w h len : Nat} (hport : fitsPort w h len = true) :
    ∃ (w' h' : Word16) (len' : BitVec 34), w = w'.toNat ∧ h = h'.toNat ∧ len = len'.toNat := by
  obtain ⟨hw, hh, hlen⟩ := fitsPort_iff.1 hport
  exact ⟨.ofNatLT w hw, .ofNatLT h hh, .ofNatLT len hlen, rfl, rfl, rfl⟩

/-- The same with the open bits of a row. -/
theorem exists_openBits_operands {n x w h len : Nat} (hwf : (decide (x < 2 ^ n) && fitsPort w h len) = true) :
    ∃ (x' : BitVec n) (w' h' : Word16) (len' : BitVec 34),
      x = x'.toNat ∧ w = w'.toNat ∧ h = h'.toNat ∧ len = len'.toNat := by
  obtain ⟨hx, hport⟩ := Bool.and_eq_true_iff.1 hwf
  obtain ⟨w', h', len', hw, hh, hlen⟩ := exists_operands hport
  exact ⟨.ofNatLT x (of_decide_eq_true hx), w', h', len', rfl, hw, hh, hlen⟩

/-- The table holds every well-formed instruction. -/
theorem exists_of_wf {i : Instr} (hi : i.wf = true) : ∃ c, DispatchRow c i := by
  cases i with
  | rgb565Enc w h len =>
    obtain ⟨w, h, len, rfl, rfl, rfl⟩ := exists_operands hi
    exact ⟨_, rgb565Enc w h len⟩
  | grayPack w h len =>
    obtain ⟨w, h, len, rfl, rfl, rfl⟩ := exists_operands hi
    exact ⟨_, grayPack w h len⟩
  | packUnsupported f w h len =>
    obtain ⟨f, w, h, len, rfl, rfl, rfl, rfl⟩ := exists_openBits_operands (n := 1) hi
    exact ⟨_, packUnsupported f w h len⟩
  | rgb565Dec w h len =>
    obtain ⟨w, h, len, rfl, rfl, rfl⟩ := exists_operands hi
    exact ⟨_, rgb565Dec w h len⟩
  | grayUnpack w h len =>
    obtain ⟨w, h, len, rfl, rfl, rfl⟩ := exists_operands hi
    exact ⟨_, grayUnpack w h len⟩
  | reservedUnpackFmt f w h len =>
    obtain ⟨f, w, h, len, rfl, rfl, rfl, rfl⟩ := exists_openBits_operands (n := 1) hi
    exact ⟨_, reservedUnpackFmt f w h len⟩
  | toifHdr x w h len =>
    obtain ⟨x, w, h, len, rfl, rfl, rfl, rfl⟩ := exists_openBits_operands (n := 2) hi
    exact ⟨_, toifHdr x w h len⟩
  | reservedOp3 x w h len =>
    obtain ⟨x, w, h, len, rfl, rfl, rfl, rfl⟩ := exists_openBits_operands (n := 2) hi
    exact ⟨_, reservedOp3 x w h len⟩

end DispatchRow

/-! ### The opcode table -/

/-- The encoded word of every instruction lies in the row of its mnemonic. -/
theorem exists_opcodeRow (i : Instr) : Laws.EncodedRow.Statement i := by
  cases i with
  | rgb565Enc w h len => exact Laws.EncodedRow.rgb565Enc w h len
  | grayPack w h len => exact Laws.EncodedRow.grayPack w h len
  | packUnsupported f w h len => exact Laws.EncodedRow.packUnsupported f w h len
  | rgb565Dec w h len => exact Laws.EncodedRow.rgb565Dec w h len
  | grayUnpack w h len => exact Laws.EncodedRow.grayUnpack w h len
  | reservedUnpackFmt f w h len => exact Laws.EncodedRow.reservedUnpackFmt f w h len
  | toifHdr x w h len => exact Laws.EncodedRow.toifHdr x w h len
  | reservedOp3 x w h len => exact Laws.EncodedRow.reservedOp3 x w h len

/-- No two rows of the opcode table hold the same word. -/
theorem opcodeRow_unique : ∀ (cmd : BitVec 4), ∀ r ∈ opcodeRows, ∀ q ∈ opcodeRows,
    r.holds cmd = true → q.holds cmd = true → q = r := by
  decide

/-! ### Open bits as numbers -/

/-- A row of three given bits and one open bit, the open bit given by its number. -/
theorem append_ofNat_one (p : BitVec 3) {f : Nat} (hf : f < 2) :
    p ++ BitVec.ofNat 1 f = (p ++ 0#1) + BitVec.ofNat 4 f := by
  interval_cases f <;> decide +revert

/-- A row of two given bits and two open bits, the open bits given by their number. -/
theorem append_ofNat_two (p : BitVec 2) {x : Nat} (hx : x < 4) :
    p ++ BitVec.ofNat 2 x = (p ++ 0#2) + BitVec.ofNat 4 x := by
  interval_cases x <;> decide +revert

/-! ### The pseudo-operations (R57) -/

/-- `00` and `01` are the only tags that name a format (R43). -/
theorem fmtOfTag_eq_none {tag : BitVec 2} (h0 : tag ≠ 0) (h1 : tag ≠ 1) : fmtOfTag tag = none :=
  (if_neg h0).trans (if_neg h1)

theorem decode_packCommand_of_unrecognised {tag : BitVec 2} (htag : fmtOfTag tag = none) (w h : Word16) :
    decode (packCommand tag w h) = .packUnsupported (tag.toNat % 2) w.toNat h.toNat 0 := by
  simp [decode, packCommand, htag]

end Sys2Proof

namespace Sys2Proof.Machine

/-! ### The refusals an operation can give (R52, R120, R121) -/

/-- The body of an operation is refused at a buffer alone: a byte of `IN` is missing or `OUT` has no room. -/
def StopsAtBuffer {α : Type} (x : Except Stop α) : Prop :=
  ∀ r, x = .error (.refused r) → r = .shortInput ∨ r = .outTooSmall

namespace StopsAtBuffer

theorem ok {α : Type} (a : α) : StopsAtBuffer (.ok a) := nofun

theorem bind {α β : Type} {x : Except Stop α} {g : α → Except Stop β} (hx : StopsAtBuffer x)
    (hg : ∀ a, StopsAtBuffer (g a)) : StopsAtBuffer (x >>= g) := by
  intro r h
  rcases bind_eq_error.1 h with h | ⟨a, -, h⟩
  · exact hx r h
  · exact hg a r h

theorem readIn (s : State) (i : Nat) : StopsAtBuffer (s.readIn i) := by
  intro r h
  rcases readIn_eq_error.1 h with ⟨-, he⟩ | ⟨-, -, he⟩ <;> cases he
  exact .inl rfl

theorem writeOut (s : State) (i : Nat) (v : Byte) : StopsAtBuffer (s.writeOut i v) := by
  intro r h
  rcases writeOut_eq_error.1 h with ⟨-, he⟩ | ⟨-, -, he⟩ <;> cases he
  exact .inr rfl

theorem rgb565EncLane (k : Nat) (s : State) : StopsAtBuffer (rgb565EncLane k s) :=
  (readIn _ _).bind fun _ => (readIn _ _).bind fun _ => (readIn _ _).bind fun _ =>
    (writeOut _ _ _).bind fun _ => writeOut _ _ _

theorem grayPackLane (j : Nat) (s : State) : StopsAtBuffer (grayPackLane j s) :=
  (readIn _ _).bind fun _ => (readIn _ _).bind fun _ => writeOut _ _ _

theorem rgb565DecLane (k : Nat) (s : State) : StopsAtBuffer (rgb565DecLane k s) :=
  (readIn _ _).bind fun _ => (readIn _ _).bind fun _ =>
    (writeOut _ _ _).bind fun _ => (writeOut _ _ _).bind fun _ => writeOut _ _ _

theorem grayUnpackLane (j : Nat) (s : State) : StopsAtBuffer (grayUnpackLane j s) :=
  (readIn _ _).bind fun _ => (writeOut _ _ _).bind fun _ => writeOut _ _ _

theorem headerFields (strict : Bool) (g : PixFmt) (blen : Nat) (s : State) :
    StopsAtBuffer (headerFields strict g blen s) :=
  (readIn s 4).bind fun _ => (readIn s 5).bind fun _ => (readIn s 6).bind fun _ => (readIn s 7).bind fun _ =>
    (readIn s 8).bind fun _ => (readIn s 9).bind fun _ => (readIn s 10).bind fun _ => (readIn s 11).bind fun _ => ok _

theorem headerChecks (strict : Bool) (blen : Nat) (s : State) : StopsAtBuffer (headerChecks strict blen s) := by
  unfold Machine.headerChecks
  split
  · exact ok _
  · refine (readIn s 0).bind fun _ => (readIn s 1).bind fun _ => (readIn s 2).bind fun _ =>
      (readIn s 3).bind fun _ => ?_
    split
    · exact ok _
    · split
      · exact ok _
      · exact headerFields _ _ _ _

/-- The refusal of the body is the operation's. -/
theorem finish {x : Except Stop State} (hx : StopsAtBuffer x) {r : Refusal} (h : finish x = .refused r) :
    r = .shortInput ∨ r = .outTooSmall := by
  rcases x with (g | q) | t
  · cases h
  · cases h
    exact hx _ rfl
  · cases h

end StopsAtBuffer

/-- A loop is refused as its rounds are. -/
theorem refusal_of_runLanes {body : Nat → State → Except Stop State} (hbody : ∀ k s, StopsAtBuffer (body k s))
    {n count : Nat} {s : State} {r : Refusal} (h : runLanes body n count s = .refused r) :
    r = .shortInput ∨ r = .outTooSmall := by
  have hloop : StopsAtBuffer (forLanes body 0 n s) := fun q hq =>
    forLanes_error (fun e => ∀ q, e = .refused q → q = .shortInput ∨ q = .outTooSmall)
      (fun k u e _ _ he q hq => hbody k u q (hq ▸ he)) hq q rfl
  exact (hloop.bind fun _ => .ok _).finish h

/-- The refusals of the operations that have a meaning. -/
theorem refusal_of_exec {i : Instr} (hi : Instr.isReserved i = false) {s : State} {r : Refusal}
    (h : exec i s = .refused r) : r = .shortInput ∨ r = .outTooSmall := by
  cases i with
  | rgb565Enc w h' len => exact refusal_of_runLanes .rgb565EncLane h
  | grayPack w h' len =>
    rw [exec_grayPack] at h
    split at h
    · cases h
    · exact refusal_of_runLanes .grayPackLane h
  | packUnsupported f w h' len => cases h
  | rgb565Dec w h' n =>
    rw [exec_rgb565Dec] at h
    split at h
    · exact refusal_of_runLanes .rgb565DecLane h
    · cases h
  | grayUnpack w h' n =>
    rw [exec_grayUnpack] at h
    split at h
    · exact refusal_of_runLanes .grayUnpackLane h
    · cases h
  | toifHdr x w h' blen =>
    rw [exec_toifHdr] at h
    unfold toifHdr at h
    split at h
    · exact (StopsAtBuffer.headerChecks _ _ s).finish h
    · cases h
      exact .inl rfl
  | reservedUnpackFmt f w h' len | reservedOp3 f w h' len => cases hi

/-- A reserved instruction has no meaning in any state. -/
theorem exec_of_isReserved {i : Instr} (hi : Instr.isReserved i = true) (s : State) :
    exec i s = .refused .reservedCommand := by
  cases i with
  | reservedUnpackFmt f w h len | reservedOp3 f w h len => rfl
  | rgb565Enc w h len | grayPack w h len | packUnsupported f w h len | rgb565Dec w h len | grayUnpack w h len
  | toifHdr f w h len => cases hi

/-- The refusal `reservedCommand` is that of the reserved instructions, in every state. -/
theorem exec_eq_reserved_iff {i : Instr} {s : State} :
    exec i s = .refused .reservedCommand ↔ Instr.isReserved i = true := by
  constructor
  · intro h
    by_contra hi
    rcases refusal_of_exec (Bool.eq_false_of_not_eq_true hi) h with hr | hr <;> cases hr
  · exact fun hi => exec_of_isReserved hi s

/-- The reserved rows of the table are those of the words `011f` and `11xx` (R52). -/
theorem isReserved_iff_of_row {c : Command} {i : Instr} (hrow : DispatchRow c i) :
    Instr.isReserved i = true ↔ c.cmd = 0b0110#4 ∨ c.cmd = 0b0111#4 ∨ c.cmd = 0b1100#4 ∨ c.cmd = 0b1101#4 ∨
      c.cmd = 0b1110#4 ∨ c.cmd = 0b1111#4 := by
  cases hrow with
  | rgb565Enc w h len | grayPack w h len | rgb565Dec w h len | grayUnpack w h len =>
    simp [Instr.isReserved]
  | packUnsupported f w h len | reservedUnpackFmt f w h len =>
    rcases BitVec.eq_zero_or_eq_one f with rfl | rfl <;> simp [Instr.isReserved]
  | toifHdr x w h len | reservedOp3 x w h len =>
    simp only [Instr.isReserved]
    revert x
    decide

/-! ### The magics (R50, R72) -/

theorem magicFmt_eq_rgb_iff {b0 b1 b2 b3 : Byte} :
    magicFmt b0 b1 b2 b3 = some .rgb ↔ [b0, b1, b2, b3] = Config.magicRgb := by
  unfold magicFmt
  split
  case isTrue hrgb => simp [hrgb]
  case isFalse hrgb => split <;> simp [hrgb]

/-- The two magics differ, so that the first comparison hides no gray header. -/
theorem magicFmt_eq_gray_iff {b0 b1 b2 b3 : Byte} :
    magicFmt b0 b1 b2 b3 = some .gray ↔ [b0, b1, b2, b3] = Config.magicGray := by
  unfold magicFmt
  split
  case isTrue hrgb => simp [hrgb]
  case isFalse =>
    split
    case isTrue hgray => simp [hgray]
    case isFalse hgray => simp [hgray]

end Sys2Proof.Machine

/-! ### The statements -/

open Sys2Proof Sys2Proof.Machine

/-- Settles O3: the instruction stands in a row of the table, the encoder gives that row's command and the decoder
gives the instruction back. -/
theorem decodeOfEncode : Obligations.DecodeOfEncode := by
  intro i hi
  obtain ⟨c, hrow⟩ := DispatchRow.exists_of_wf hi
  rw [hrow.encode_eq, hrow.decode_eq]

/-- Settles O4: the command and its decoded instruction stand in one row, which the encoder reads backwards. -/
theorem encodeOfDecode : Obligations.EncodeOfDecode := fun c => ⟨decode_wf c, (DispatchRow.row_decode c).encode_eq⟩

/-- Settles O31: the other six rows stop at a buffer if they stop, and the reserved rows hold these six words. -/
theorem reservedWordsRefused : Obligations.ReservedWordsRefused :=
  ⟨fun _ _ _ _ s => exec_of_isReserved rfl s, fun _ _ _ _ s => exec_of_isReserved rfl s,
    fun c _ => exec_eq_reserved_iff.trans (isReserved_iff_of_row (DispatchRow.row_decode c))⟩

/-- Settles O1: each word with its operands stands in its row of the table. -/
theorem sampleWordsDecode : Obligations.SampleWordsDecode :=
  ⟨(DispatchRow.rgb565Enc 2 2 0).decode_eq, (DispatchRow.grayPack 65535 3 7).decode_eq,
    (DispatchRow.packUnsupported 1 3 1 0).decode_eq, (DispatchRow.rgb565Dec 2 2 8).decode_eq,
    (DispatchRow.grayUnpack 4 2 4).decode_eq, (DispatchRow.reservedUnpackFmt 0 1 2 3).decode_eq,
    (DispatchRow.toifHdr 1 0 0 25).decode_eq, (DispatchRow.reservedOp3 3 1 2 3).decode_eq⟩

/-- Settles O2: each word stands in its row of the table, the open bits given by their number. -/
theorem dispatchTableComplete : Obligations.DispatchTableComplete := by
  intro w h len
  refine ⟨(DispatchRow.rgb565Enc w h len).decode_eq, (DispatchRow.grayPack w h len).decode_eq, fun f hf => ?_,
    (DispatchRow.rgb565Dec w h len).decode_eq, (DispatchRow.grayUnpack w h len).decode_eq, fun f hf => ?_,
    fun x hx => ?_, fun x hx => ?_⟩
  · have hrow := (DispatchRow.packUnsupported (.ofNat 1 f) w h len).decode_eq
    rwa [append_ofNat_one _ hf, BitVec.toNat_ofNat, Nat.mod_eq_of_lt hf] at hrow
  · have hrow := (DispatchRow.reservedUnpackFmt (.ofNat 1 f) w h len).decode_eq
    rwa [append_ofNat_one _ hf, BitVec.toNat_ofNat, Nat.mod_eq_of_lt hf] at hrow
  · have hrow := (DispatchRow.toifHdr (.ofNat 2 x) w h len).decode_eq
    rwa [append_ofNat_two _ hx, BitVec.toNat_ofNat, Nat.mod_eq_of_lt hx] at hrow
  · have hrow := (DispatchRow.reservedOp3 (.ofNat 2 x) w h len).decode_eq
    rwa [append_ofNat_two _ hx, BitVec.toNat_ofNat, Nat.mod_eq_of_lt hx] at hrow

/-- Settles O5: the command is the encoding of its decoded instruction, whose row holds it; no other row does. -/
theorem opcodeRowsPartitionWords : Obligations.OpcodeRowsPartitionWords := by
  intro c
  have hcmd : encodeWord (decode c) = c.cmd := congrArg Command.cmd (DispatchRow.row_decode c).encode_eq
  obtain ⟨r, hr, hmnemonic, hholds⟩ := exists_opcodeRow (decode c)
  rw [hcmd] at hholds
  exact ⟨r, hr, hholds, fun q hq hq' => opcodeRow_unique c.cmd r hr q hq hholds hq', hmnemonic.symm⟩

/-- Settles O7: the words `{00, fmt}` and `{01, fmt}` of a recognised tag stand in their rows of the table; with any
other tag `PACK` is the unsupported row's and `UNPACK` is not written. -/
theorem pseudoOperationsExpand : Obligations.PseudoOperationsExpand := by
  intro tag w h len
  refine ⟨?_, ?_, fun h0 h1 => ?_⟩
  · rintro rfl
    exact ⟨(DispatchRow.rgb565Enc w h 0).decode_eq, _, rfl, (DispatchRow.rgb565Dec w h len).decode_eq⟩
  · rintro rfl
    exact ⟨(DispatchRow.grayPack w h 0).decode_eq, _, rfl, (DispatchRow.grayUnpack w h len).decode_eq⟩
  · have htag := fmtOfTag_eq_none h0 h1
    refine ⟨rfl, fun s => ?_, by rw [unpackCommand, htag]⟩
    rw [decode_packCommand_of_unrecognised htag]
    rfl

/-- Settles O16: each magic is compared as the list of its four bytes. -/
theorem magicExact : Obligations.MagicExact := fun b0 b1 b2 b3 =>
  ⟨magicFmt_eq_rgb_iff.trans (by simp), magicFmt_eq_gray_iff.trans (by simp)⟩

/-- Settles O18: the codes as the model tabulates them. -/
theorem errorCodesAsTabulated : Obligations.ErrorCodesAsTabulated := ⟨rfl, rfl, rfl, rfl, rfl, rfl⟩

end

section
/-! Proofs of spec/40_rgb565_encoder.md: the RGB565 lane functions by the values of their fields, and a loop that runs to
its end once every round finds its input and its room. -/

namespace Sys2Proof

/-- Two pixels whose channels count the same are equal. -/
theorem Rgb.eq_of_toNat_eq {p q : Rgb} (hr : p.r.toNat = q.r.toNat) (hg : p.g.toNat = q.g.toNat)
    (hb : p.b.toNat = q.b.toNat) : p = q := by
  cases p
  cases q
  rw [Rgb.mk.injEq]
  exact ⟨BitVec.eq_of_toNat_eq hr, BitVec.eq_of_toNat_eq hg, BitVec.eq_of_toNat_eq hb⟩

end Sys2Proof

namespace Sys2Proof.Machine

/-! ### Masks and disjoint fields as numbers -/

/-- Clearing the low `k` bits of a byte rounds it down to a multiple of `2 ^ k`. -/
theorem toNat_and_allOnes_shiftLeft (b : Byte) (k : Nat) :
    (b &&& BitVec.allOnes 8 <<< k).toNat = b.toNat / 2 ^ k * 2 ^ k := by
  have hle : b.toNat / 2 ^ k * 2 ^ k ≤ b.toNat := Nat.div_mul_le_self ..
  rw [← BitVec.shiftLeft_ushiftRight, BitVec.toNat_shiftLeft, BitVec.toNat_ushiftRight, Nat.shiftRight_eq_div_pow,
    Nat.shiftLeft_eq, Nat.mod_eq_of_lt (hle.trans_lt b.isLt)]

theorem toNat_and_0xF8 (b : Byte) : (b &&& 0xF8#8).toNat = b.toNat / 8 * 8 := toNat_and_allOnes_shiftLeft b 3

theorem toNat_and_0xFC (b : Byte) : (b &&& 0xFC#8).toNat = b.toNat / 4 * 4 := toNat_and_allOnes_shiftLeft b 2

theorem toNat_and_0xE0 (b : Byte) : (b &&& 0xE0#8).toNat = b.toNat / 32 * 32 := toNat_and_allOnes_shiftLeft b 5

theorem toNat_and_7 (b : Byte) : (b &&& 7#8).toNat = b.toNat % 8 := Nat.and_two_pow_sub_one_eq_mod b.toNat 3

theorem toNat_and_3 (b : Byte) : (b &&& 3#8).toNat = b.toNat % 4 := Nat.and_two_pow_sub_one_eq_mod b.toNat 2

/-- Or-ing a value of at most `k` bits into a multiple of `2 ^ k` adds it. -/
theorem toNat_or_of_dvd {n k : Nat} {u v : BitVec n} (hu : 2 ^ k ∣ u.toNat) (hv : v.toNat < 2 ^ k) :
    (u ||| v).toNat = u.toNat + v.toNat := by
  obtain ⟨c, hc⟩ := hu
  rw [BitVec.toNat_or, hc, Nat.two_pow_add_eq_or_of_lt hv]

/-! ### The RGB565 word of a pixel (R59) -/

/-- The value of the word: the three fields, each counting what its place in the word does. -/
theorem toNat_rgb565Pack (p : Rgb) :
    (rgb565Pack p).toNat = p.r.toNat / 8 * 2 ^ 11 + p.g.toNat / 4 * 2 ^ 5 + p.b.toNat / 8 := by
  have hr := p.r.isLt
  have hg := p.g.isLt
  have hb := p.b.isLt
  have hrField : ((p.r >>> 3).setWidth 16 <<< 11).toNat = p.r.toNat / 8 * 2 ^ 11 := by
    simp [Nat.shiftRight_eq_div_pow, Nat.shiftLeft_eq]
    omega
  have hgField : ((p.g >>> 2).setWidth 16 <<< 5).toNat = p.g.toNat / 4 * 2 ^ 5 := by
    simp [Nat.shiftRight_eq_div_pow, Nat.shiftLeft_eq]
    omega
  have hbField : ((p.b >>> 3).setWidth 16).toNat = p.b.toNat / 8 := by
    simp [Nat.shiftRight_eq_div_pow]
    omega
  have hrg := toNat_or_of_dvd (k := 11) (v := (p.g >>> 2).setWidth 16 <<< 5) (by rw [hrField]; omega) (by omega)
  rw [rgb565Pack, toNat_or_of_dvd (k := 5) (by omega) (by omega), hrg, hrField, hgField, hbField]

/-- The fields of the word are the top bits of the channels. -/
theorem extractLsb'_rgb565Pack (p : Rgb) :
    (rgb565Pack p).extractLsb' 11 5 = p.r.extractLsb' 3 5 ∧ (rgb565Pack p).extractLsb' 5 6 = p.g.extractLsb' 2 6 ∧
    (rgb565Pack p).extractLsb' 0 5 = p.b.extractLsb' 3 5 := by
  have hr := p.r.isLt
  have hg := p.g.isLt
  have hb := p.b.isLt
  simp only [← BitVec.toNat_inj, BitVec.extractLsb'_toNat, Nat.shiftRight_eq_div_pow, toNat_rgb565Pack]
  omega

theorem hiByte_rgb565Pack (p : Rgb) : hiByte (rgb565Pack p) = (p.r &&& 0xF8#8) ||| (p.g >>> 5) := by
  have hg := p.g.isLt
  have hb := p.b.isLt
  have hmask := toNat_and_0xF8 p.r
  have hshift : (p.g >>> 5).toNat = p.g.toNat / 32 := by
    rw [BitVec.toNat_ushiftRight, Nat.shiftRight_eq_div_pow]
  apply BitVec.eq_of_toNat_eq
  rw [toNat_hiByte, toNat_rgb565Pack, toNat_or_of_dvd (k := 3) (by omega) (by omega), hmask, hshift]
  omega

theorem loByte_rgb565Pack (p : Rgb) : loByte (rgb565Pack p) = ((p.g <<< 3) &&& 0xE0#8) ||| (p.b >>> 3) := by
  have hg := p.g.isLt
  have hb := p.b.isLt
  have hmask := toNat_and_0xE0 (p.g <<< 3)
  have hshift : (p.b >>> 3).toNat = p.b.toNat / 8 := by
    rw [BitVec.toNat_ushiftRight, Nat.shiftRight_eq_div_pow]
  apply BitVec.eq_of_toNat_eq
  rw [toNat_loByte, toNat_rgb565Pack, toNat_or_of_dvd (k := 5) (by omega) (by omega), hmask, hshift,
    BitVec.toNat_shiftLeft, Nat.shiftLeft_eq]
  omega

/-- Brighter channels give no smaller word: each field is monotone in its channel. -/
theorem rgb565Pack_le {p q : Rgb} (hr : p.r ≤ q.r) (hg : p.g ≤ q.g) (hb : p.b ≤ q.b) :
    rgb565Pack p ≤ rgb565Pack q := by
  rw [BitVec.le_def] at hr hg hb ⊢
  rw [toNat_rgb565Pack, toNat_rgb565Pack]
  omega

/-! ### The pixel of an RGB565 word (R83), and the two together (R63, R87) -/

/-- The channels of the word's pixel: each field with zeros below it. -/
theorem toNat_rgb565Unpack (v : Word16) :
    (rgb565Unpack v).r.toNat = v.toNat / 2 ^ 11 * 8 ∧ (rgb565Unpack v).g.toNat = v.toNat / 2 ^ 5 % 2 ^ 6 * 4 ∧
    (rgb565Unpack v).b.toNat = v.toNat % 2 ^ 5 * 8 := by
  have hv := v.isLt
  have hg : (v >>> 5 &&& 0x3F#16).toNat = v.toNat / 2 ^ 5 % 2 ^ 6 := by
    rw [BitVec.toNat_and, BitVec.toNat_ushiftRight, Nat.shiftRight_eq_div_pow]
    exact Nat.and_two_pow_sub_one_eq_mod _ 6
  have hb : (v &&& 0x1F#16).toNat = v.toNat % 2 ^ 5 := Nat.and_two_pow_sub_one_eq_mod _ 5
  simp only [rgb565Unpack, BitVec.toNat_setWidth, BitVec.toNat_shiftLeft, BitVec.toNat_ushiftRight, hg, hb,
    Nat.shiftRight_eq_div_pow, Nat.shiftLeft_eq]
  omega

/-- Expanding what was packed clears the low bits. -/
theorem rgb565Unpack_rgb565Pack (p : Rgb) :
    rgb565Unpack (rgb565Pack p) = ⟨p.r &&& 0xF8#8, p.g &&& 0xFC#8, p.b &&& 0xF8#8⟩ := by
  have hg := p.g.isLt
  have hb := p.b.isLt
  obtain ⟨hur, hug, hub⟩ := toNat_rgb565Unpack (rgb565Pack p)
  rw [toNat_rgb565Pack] at hur hug hub
  apply Rgb.eq_of_toNat_eq
  · rw [hur, toNat_and_0xF8]
    omega
  · rw [hug, toNat_and_0xFC]
    omega
  · rw [hub, toNat_and_0xF8]
    omega

/-- What a round trip takes from each channel is its low bits. -/
theorem toNat_rgb565Unpack_rgb565Pack_add (p : Rgb) :
    (rgb565Unpack (rgb565Pack p)).r.toNat + (p.r &&& 7#8).toNat = p.r.toNat ∧
    (rgb565Unpack (rgb565Pack p)).g.toNat + (p.g &&& 3#8).toNat = p.g.toNat ∧
    (rgb565Unpack (rgb565Pack p)).b.toNat + (p.b &&& 7#8).toNat = p.b.toNat := by
  simp only [rgb565Unpack_rgb565Pack, toNat_and_0xF8, toNat_and_0xFC, toNat_and_7, toNat_and_3]
  omega

/-- Packing an expanded word gives the word back. -/
theorem rgb565Pack_rgb565Unpack (v : Word16) : rgb565Pack (rgb565Unpack v) = v := by
  obtain ⟨hr, hg, hb⟩ := toNat_rgb565Unpack v
  apply BitVec.eq_of_toNat_eq
  rw [toNat_rgb565Pack, hr, hg, hb]
  omega

/-- An expanded pixel has nothing below its fields. -/
theorem rgb565Unpack_low_bits (v : Word16) :
    (rgb565Unpack v).r &&& 7#8 = 0 ∧ (rgb565Unpack v).g &&& 3#8 = 0 ∧ (rgb565Unpack v).b &&& 7#8 = 0 := by
  obtain ⟨hr, hg, hb⟩ := toNat_rgb565Unpack v
  simp only [← BitVec.toNat_inj, toNat_and_7, toNat_and_3, hr, hg, hb, BitVec.ofNat_eq_ofNat, BitVec.toNat_zero]
  omega

/-! ### A loop that runs to its end (R120, R121) -/

/-- What stops only for want of input or of room runs where the host gives both. -/
theorem exists_ok_of_stopsFor {α : Type} {x : Except Stop α} {s : State} {m n : Nat}
    (h : ∀ {e}, x = .error e → StopsFor s e m n) (hin : s.hasInput m) (hroom : n < s.outRoom) : ∃ a, x = .ok a := by
  cases x with
  | ok a => exact ⟨a, rfl⟩
  | error e =>
    rcases h rfl with ⟨-, i, hi, hnone⟩ | ⟨-, hle⟩
    · simpa [hnone] using hin i hi
    · omega

/-- A loop of stores completes if each of its rounds runs on `m` bytes of input and `room` bytes of room. -/
theorem runLanes_completes {body : Nat → State → Except Stop State}
    (hbody : ∀ {k s t}, body k s = .ok t → s.Stored t) {n m room : Nat} {s : State}
    (hround : ∀ k u, k < n → u.hasInput m → room ≤ u.outRoom → ∃ t, body k u = .ok t) (count : Nat)
    (hin : s.hasInput m) (hroom : room ≤ s.outRoom) : ∃ t, runLanes body n count s = .next t := by
  have hstep : ∀ k u, 0 ≤ k → k < 0 + n → s.Stored u → ∃ t, body k u = .ok t ∧ s.Stored t := by
    intro k u _ hk hu
    obtain ⟨b, hb, -⟩ := id hu
    obtain ⟨t, ht⟩ := hround k u (by omega) (by rwa [hb]) (by rwa [hb])
    exact ⟨t, ht, hu.trans (hbody ht)⟩
  obtain ⟨t, ht, -⟩ := forLanes_runs (fun _ u => s.Stored u) hstep (.refl s)
  exact ⟨_, runLanes_eq_next.2 ⟨t, ht, rfl⟩⟩

/-- RGB565_ENC completes on every bitmap (R61). -/
theorem exec_rgb565Enc_completes {w h len : Nat} (hwf : (Instr.rgb565Enc w h len).wf = true) {s : State}
    (hin : s.hasInput (3 * (w * h))) (hroom : 2 * (w * h) ≤ s.outRoom) :
    ∃ t, exec (.rgb565Enc w h len) s = .next t := by
  obtain ⟨hw, hh, -⟩ := fitsPort_iff.1 hwf
  have hp : 3 * (w * h) < Config.indexSpace := rgbBytes_lt hw hh
  exact runLanes_completes .of_rgb565EncLane (fun k u hk hin' hroom' =>
    exists_ok_of_stopsFor (rgb565EncLane_stops (by omega)) (fun i hi => hin' i (by omega)) (by omega)) _ hin hroom

/-- A count below `2 ^ 34` ends the operation with exactly that `out_len` (R8, R9). -/
theorem State.endsOk_done (s : State) {n : Nat} (hn : n < 2 ^ 34) : (s.done n).endsOk n :=
  ⟨okResponse n, rfl, rfl, s.written_done hn, rfl, rfl, rfl, rfl⟩

end Sys2Proof.Machine

/-! ### The statements -/

open Sys2Proof Sys2Proof.Machine

/-- Settles O12: the laws by the values of the fields; expanding is one-to-one because packing undoes it. -/
theorem rgb565LaneLaws : Obligations.Rgb565LaneLaws :=
  ⟨rgb565Unpack_rgb565Pack, toNat_rgb565Unpack_rgb565Pack_add, fun _ _ => rgb565Pack_le, rgb565Pack_rgb565Unpack,
    fun _ _ h => Function.LeftInverse.injective rgb565Pack_rgb565Unpack h, rgb565Unpack_low_bits⟩

/-- Settles O19: every round finds its input and its room, so the loop completes; what round `k` stored stays at `2k`
and `2k + 1`, and no round stores at `2 w h` or above. -/
theorem rgb565EncResult : Obligations.Rgb565EncResult := by
  intro w h len s hwf
  refine ⟨rfl, fun hin hroom => ?_⟩
  obtain ⟨t, hex⟩ := exec_rgb565Enc_completes hwf hin hroom
  obtain ⟨u, hstores, rfl⟩ := stores_of_runLanes (pos := (2 * ·)) StoresWithin.of_rgb565EncLane hex
  exact ⟨_, hex, u.endsOk_done (counts_lt_of_wf hwf).2,
    fun k hk r g b hr hg hb => read_of_exec_rgb565Enc hex hk hr hg hb,
    fun a ha => hstores.read a (.inr ha), (ended_of_exec hex).sameButOut⟩

/-- Settles O8: the fields and the bytes from the value of the word, and the formula as the model writes it. -/
theorem rgb565PackFormula : Obligations.Rgb565PackFormula := fun p =>
  ⟨extractLsb'_rgb565Pack p, rfl, hiByte_rgb565Pack p, loByte_rgb565Pack p⟩

end

section
/-! Proofs of spec/41_gray_packer.md: the gray lane functions by the values of their nibbles, GRAY_PACK on odd and on
even widths, and which error an operation raises from its operands alone. -/

namespace Sys2Proof

/-- Two pairs whose luminance values count the same are equal. -/
theorem GrayPair.eq_of_toNat_eq {p q : GrayPair} (h1 : p.l1.toNat = q.l1.toNat) (h2 : p.l2.toNat = q.l2.toNat) :
    p = q := by
  cases p
  cases q
  rw [GrayPair.mk.injEq]
  exact ⟨BitVec.eq_of_toNat_eq h1, BitVec.eq_of_toNat_eq h2⟩

end Sys2Proof

namespace Sys2Proof.Machine

/-! ### The packed byte of a pair (R65) -/

theorem toNat_and_0xF0 (b : Byte) : (b &&& 0xF0#8).toNat = b.toNat / 16 * 16 := toNat_and_allOnes_shiftLeft b 4

theorem toNat_and_0x0F (b : Byte) : (b &&& 0x0F#8).toNat = b.toNat % 16 := Nat.and_two_pow_sub_one_eq_mod b.toNat 4

/-- The value of the packed byte: the top nibble of the first value counts 16s, that of the second ones. -/
theorem toNat_grayPackPair (p : GrayPair) :
    (grayPackPair p).toNat = p.l1.toNat / 16 * 16 + p.l2.toNat / 16 := by
  have h2 := p.l2.isLt
  have hmask := toNat_and_0xF0 p.l1
  have hshift : (p.l2 >>> 4).toNat = p.l2.toNat / 16 := by
    rw [BitVec.toNat_ushiftRight, Nat.shiftRight_eq_div_pow]
  rw [grayPackPair, toNat_or_of_dvd (k := 4) (by omega) (by omega), hmask, hshift]

/-- The nibbles of the packed byte are the top nibbles of the values. -/
theorem extractLsb'_grayPackPair (p : GrayPair) :
    (grayPackPair p).extractLsb' 4 4 = p.l1.extractLsb' 4 4 ∧
    (grayPackPair p).extractLsb' 0 4 = p.l2.extractLsb' 4 4 := by
  have h1 := p.l1.isLt
  have h2 := p.l2.isLt
  simp only [← BitVec.toNat_inj, BitVec.extractLsb'_toNat, Nat.shiftRight_eq_div_pow, toNat_grayPackPair]
  omega

/-- Brighter values give no smaller byte: each nibble is monotone in its value. -/
theorem grayPackPair_le {p q : GrayPair} (h1 : p.l1 ≤ q.l1) (h2 : p.l2 ≤ q.l2) :
    grayPackPair p ≤ grayPackPair q := by
  have hp2 := p.l2.isLt
  have hq2 := q.l2.isLt
  rw [BitVec.le_def] at h1 h2 ⊢
  rw [toNat_grayPackPair, toNat_grayPackPair]
  omega

/-! ### The pair of a packed byte (R89), and the two together (R69, R93) -/

/-- The luminance values of the byte's pair: each nibble with zeros below it. -/
theorem toNat_grayUnpackByte (b : Byte) :
    (grayUnpackByte b).l1.toNat = b.toNat / 16 * 16 ∧ (grayUnpackByte b).l2.toNat = b.toNat % 16 * 16 := by
  refine ⟨toNat_and_0xF0 b, ?_⟩
  simp only [grayUnpackByte, BitVec.toNat_shiftLeft, toNat_and_0x0F, Nat.shiftLeft_eq]
  omega

/-- Expanding what was packed clears the low nibbles. -/
theorem grayUnpackByte_grayPackPair (p : GrayPair) :
    grayUnpackByte (grayPackPair p) = ⟨p.l1 &&& 0xF0#8, p.l2 &&& 0xF0#8⟩ := by
  have h2 := p.l2.isLt
  obtain ⟨hu1, hu2⟩ := toNat_grayUnpackByte (grayPackPair p)
  rw [toNat_grayPackPair] at hu1 hu2
  apply GrayPair.eq_of_toNat_eq
  · rw [hu1, toNat_and_0xF0]
    omega
  · rw [hu2, toNat_and_0xF0]
    omega

/-- What a round trip takes from each value is its low nibble. -/
theorem toNat_grayUnpackByte_grayPackPair_add (p : GrayPair) :
    (grayUnpackByte (grayPackPair p)).l1.toNat + (p.l1 &&& 0x0F#8).toNat = p.l1.toNat ∧
    (grayUnpackByte (grayPackPair p)).l2.toNat + (p.l2 &&& 0x0F#8).toNat = p.l2.toNat := by
  simp only [grayUnpackByte_grayPackPair, toNat_and_0xF0, toNat_and_0x0F]
  omega

/-- Packing an expanded byte gives the byte back. -/
theorem grayPackPair_grayUnpackByte (b : Byte) : grayPackPair (grayUnpackByte b) = b := by
  obtain ⟨h1, h2⟩ := toNat_grayUnpackByte b
  apply BitVec.eq_of_toNat_eq
  rw [toNat_grayPackPair, h1, h2]
  omega

/-- An expanded pair has nothing below its nibbles. -/
theorem grayUnpackByte_low_bits (b : Byte) :
    (grayUnpackByte b).l1 &&& 0x0F#8 = 0 ∧ (grayUnpackByte b).l2 &&& 0x0F#8 = 0 := by
  obtain ⟨h1, h2⟩ := toNat_grayUnpackByte b
  simp only [← BitVec.toNat_inj, toNat_and_0x0F, h1, h2, BitVec.ofNat_eq_ofNat, BitVec.toNat_zero]
  omega

/-! ### GRAY_PACK by the parity of the width (R66, R67) -/

theorem exec_grayPack_of_odd {w : Nat} (hw : w % 2 = 1) (h len : Nat) (s : State) :
    exec (.grayPack w h len) s = .next (s.raise .invalidDimensions) := by
  rw [exec_grayPack, if_pos (by simp [oddWidth, hw])]

theorem exec_grayPack_of_even {w : Nat} (hw : w % 2 = 0) (h len : Nat) (s : State) :
    exec (.grayPack w h len) s = runLanes grayPackLane (w * h / 2) (w * h / 2) s := by
  rw [exec_grayPack, if_neg (by simp [oddWidth, hw])]

/-- GRAY_PACK completes on every bitmap of even width. -/
theorem exec_grayPack_completes {w h len : Nat} (hwf : (Instr.grayPack w h len).wf = true) (hw : w % 2 = 0) {s : State}
    (hin : s.hasInput (w * h)) (hroom : w * h / 2 ≤ s.outRoom) : ∃ t, exec (.grayPack w h len) s = .next t := by
  obtain ⟨hw', hh', -⟩ := fitsPort_iff.1 hwf
  have hp : 3 * (w * h) < Config.indexSpace := rgbBytes_lt hw' hh'
  rw [exec_grayPack_of_even hw]
  exact runLanes_completes .of_grayPackLane (fun j u hj hin' hroom' =>
    exists_ok_of_stopsFor (grayPackLane_stops (by omega)) (fun i hi => hin' i (by omega)) (by omega)) _ hin hroom

/-! ### The errors of the operations (R95 to R99) -/

/-- A loop that completes raises no error. -/
theorem status_of_runLanes {body : Nat → State → Except Stop State} {n count : Nat} {s t : State} {r : Response}
    (h : runLanes body n count s = .next t) (hr : t.response = some r) : r.status = 0 := by
  obtain ⟨u, -, rfl⟩ := runLanes_eq_next.1 h
  cases hr
  rfl

/-- How TOIF_HDR ends: with one of its two errors, or with the fields of a header (R77, R98, R99). -/
inductive HeaderEnded (s : State) : State → Prop
  | badMagic : HeaderEnded s (s.raise .badMagic)
  | lengthMismatch : HeaderEnded s (s.raise .lengthMismatch)
  | accepted (f : PixFmt) (w h : Word16) (clen : BitVec 32) : HeaderEnded s (s.doneHeader f w h clen)

namespace HeaderEnded

theorem of_headerFields {strict : Bool} {f : PixFmt} {blen : Nat} {s t : State}
    (h : headerFields strict f blen s = .ok t) : HeaderEnded s t := by
  simp only [headerFields, bind_eq_ok] at h
  obtain ⟨b4, -, b5, -, b6, -, b7, -, b8, -, b9, -, b10, -, b11, -, h⟩ := h
  cases h
  split
  · exact lengthMismatch
  · exact accepted ..

theorem of_headerChecks {strict : Bool} {blen : Nat} {s t : State}
    (h : headerChecks strict blen s = .ok t) : HeaderEnded s t := by
  unfold headerChecks at h
  split at h
  · cases h
    exact badMagic
  · simp only [bind_eq_ok] at h
    obtain ⟨b0, -, b1, -, b2, -, b3, -, h⟩ := h
    split at h
    · cases h
      exact badMagic
    · split at h
      · cases h
        exact lengthMismatch
      · exact of_headerFields h

theorem of_exec {x w h' blen : Nat} {s t : State} (h : exec (.toifHdr x w h' blen) s = .next t) :
    HeaderEnded s t := by
  rw [exec_toifHdr] at h
  unfold toifHdr at h
  split at h
  · exact of_headerChecks (finish_eq_next.1 h)
  · cases h

theorem status {s t : State} {r : Response} (h : HeaderEnded s t) (hr : t.response = some r) :
    r.status = 0 ∨ r.status = 3 ∨ r.status = 4 := by
  cases h <;> cases hr
  case accepted => exact .inl rfl
  case badMagic => exact .inr (.inl rfl)
  case lengthMismatch => exact .inr (.inr rfl)

end HeaderEnded

/-- The error an operation raises from its operands alone, before any byte of `IN` is read (R67, R79, R96); the errors
of TOIF_HDR depend on `IN`. -/
def operandError : Instr → Option BlockError
  | .rgb565Enc _ _ _ => none
  | .grayPack w _ _ => if oddWidth w then some .invalidDimensions else none
  | .packUnsupported _ _ _ _ => some .unsupportedFormat
  | .rgb565Dec w h n => if sizeOk .rgb w h n then none else some .sizeMismatch
  | .grayUnpack w h n => if sizeOk .gray w h n then none else some .sizeMismatch
  | .reservedUnpackFmt _ _ _ _ => none
  | .toifHdr _ _ _ _ => none
  | .reservedOp3 _ _ _ _ => none

/-- The operation raises that error in every state. -/
theorem exec_of_operandError {i : Instr} {e : BlockError} (he : operandError i = some e) (s : State) :
    exec i s = .next (s.raise e) := by
  cases i with
  | grayPack w h len =>
    obtain ⟨hw, rfl⟩ : oddWidth w = true ∧ .invalidDimensions = e := by simpa [operandError] using he
    rw [exec_grayPack, if_pos hw]
  | packUnsupported f w h len =>
    cases he
    rfl
  | rgb565Dec w h n =>
    obtain ⟨hsize, rfl⟩ : sizeOk .rgb w h n = false ∧ .sizeMismatch = e := by simpa [operandError] using he
    rw [exec_rgb565Dec, if_neg (by simp [hsize])]
  | grayUnpack w h n =>
    obtain ⟨hsize, rfl⟩ : sizeOk .gray w h n = false ∧ .sizeMismatch = e := by simpa [operandError] using he
    rw [exec_grayUnpack, if_neg (by simp [hsize])]
  | rgb565Enc w h len | reservedUnpackFmt f w h len | toifHdr x w h len | reservedOp3 x w h len => cases he

/-- Where the operands raise no error, only the two errors of a header are left. -/
theorem status_of_operandError_eq_none {i : Instr} (hnone : operandError i = none) {s t : State} {r : Response}
    (hex : exec i s = .next t) (hr : t.response = some r) : r.status = 0 ∨ r.status = 3 ∨ r.status = 4 := by
  cases i with
  | rgb565Enc w h len => exact .inl (status_of_runLanes hex hr)
  | grayPack w h len =>
    have hw : oddWidth w = false := by simpa [operandError] using hnone
    rw [exec_grayPack, if_neg (by simp [hw])] at hex
    exact .inl (status_of_runLanes hex hr)
  | rgb565Dec w h n =>
    have hsize : sizeOk .rgb w h n = true := by simpa [operandError] using hnone
    rw [exec_rgb565Dec, if_pos hsize] at hex
    exact .inl (status_of_runLanes hex hr)
  | grayUnpack w h n =>
    have hsize : sizeOk .gray w h n = true := by simpa [operandError] using hnone
    rw [exec_grayUnpack, if_pos hsize] at hex
    exact .inl (status_of_runLanes hex hr)
  | toifHdr x w h blen => exact (HeaderEnded.of_exec hex).status hr
  | packUnsupported f w h len => cases hnone
  | reservedUnpackFmt f w h len | reservedOp3 f w h len => cases hex

/-- No two errors share a code (R45). -/
theorem BlockError.code_injective : Function.Injective BlockError.code := by
  intro e e'
  cases e <;> cases e' <;> decide

/-- No error has the code of `OK` (R45). -/
theorem BlockError.code_ne_zero (e : BlockError) : e.code ≠ 0 := by
  cases e <;> decide

/-- A response carries the code of an error that is none of a header's exactly when the operands raise that error. -/
theorem status_eq_code_iff {i : Instr} {s t : State} {r : Response} (hex : exec i s = .next t)
    (hr : t.response = some r) {e : BlockError} (hmagic : e ≠ .badMagic) (hlength : e ≠ .lengthMismatch) :
    r.status = e.code ↔ operandError i = some e := by
  cases hop : operandError i with
  | some e' =>
    rw [exec_of_operandError hop] at hex
    cases hex
    cases hr
    exact BlockError.code_injective.eq_iff.trans Option.some_inj.symm
  | none =>
    refine iff_of_false (fun hcode => ?_) nofun
    rcases status_of_operandError_eq_none hop hex hr with h | h | h <;> rw [h] at hcode
    · exact e.code_ne_zero hcode.symm
    · exact hmagic (BlockError.code_injective hcode.symm)
    · exact hlength (BlockError.code_injective hcode.symm)

/-- The one row of the table that raises InvalidDimensionsError is that of the word `0001`, on odd widths (R97). -/
theorem operandError_eq_invalidDimensions_iff_of_row {c : Command} {i : Instr} (hrow : DispatchRow c i) :
    operandError i = some .invalidDimensions ↔ c.cmd = 0b0001#4 ∧ c.w.toNat % 2 = 1 := by
  cases hrow with
  | grayPack w h len => simp [operandError, oddWidth]
  | rgb565Enc w h len | rgb565Dec w h len | grayUnpack w h len => simp [operandError]
  | packUnsupported f w h len | reservedUnpackFmt f w h len =>
    rcases BitVec.eq_zero_or_eq_one f with rfl | rfl <;> simp [operandError]
  | toifHdr x w h len | reservedOp3 x w h len =>
    have hcmd : ∀ x : BitVec 2, 0b10#2 ++ x ≠ 0b0001#4 ∧ 0b11#2 ++ x ≠ 0b0001#4 := by decide
    simp [operandError, hcmd]

end Sys2Proof.Machine

/-! ### The statements -/

open Sys2Proof Sys2Proof.Machine

/-- Settles O13: the laws by the values of the nibbles; expanding is one-to-one because packing undoes it. -/
theorem grayLaneLaws : Obligations.GrayLaneLaws :=
  ⟨grayUnpackByte_grayPackPair, toNat_grayUnpackByte_grayPackPair_add, fun _ _ => grayPackPair_le,
    grayPackPair_grayUnpackByte, fun _ _ h => Function.LeftInverse.injective grayPackPair_grayUnpackByte h,
    grayUnpackByte_low_bits⟩

/-- Settles O20: an odd width fails the check before the loop; on an even one every round finds its input and its room,
what round `j` stored stays at `j`, and no round stores at `w h / 2` or above. -/
theorem grayPackResult : Obligations.GrayPackResult := by
  intro w h len s hwf
  refine ⟨rfl, fun hw => exec_grayPack_of_odd hw h len s, fun hw hin hroom => ?_⟩
  obtain ⟨t, hex⟩ := exec_grayPack_completes hwf hw hin hroom
  obtain ⟨u, hstores, rfl⟩ := stores_of_runLanes (pos := id) StoresWithin.of_grayPackLane
    ((exec_grayPack_of_even hw h len s).symm.trans hex)
  have hcount : w * h / 2 < 2 ^ 34 := by simpa [roomNeeded, oddWidth, hw] using (counts_lt_of_wf hwf).2
  exact ⟨_, hex, u.endsOk_done hcount, fun j hj l1 l2 h1 h2 => read_of_exec_grayPack hw hex hj h1 h2,
    fun a ha => hstores.read a (.inr ha), (ended_of_exec hex).sameButOut⟩

/-- Settles O21: on an even width GRAY_PACK is the loop, which raises nothing; over all commands the status is 2 where
the operands raise the error, which the table does in one row. -/
theorem grayPackOddWidth : Obligations.GrayPackOddWidth := by
  refine ⟨fun w h len s => ⟨fun hw => exec_grayPack_of_odd hw h len s, fun hw t r hex hr => ?_⟩,
    fun c s t r hex hr => ?_⟩
  · rw [exec_grayPack_of_even hw] at hex
    exact status_of_runLanes hex hr
  · have hstatus : r.status = 2 ↔ operandError (decode c) = some .invalidDimensions :=
      status_eq_code_iff hex hr (e := .invalidDimensions) nofun nofun
    exact hstatus.trans (operandError_eq_invalidDimensions_iff_of_row (DispatchRow.row_decode c))

/-- Settles O10: the nibbles from the value of the byte, and the formula as the model writes it. -/
theorem grayPackFormula : Obligations.GrayPackFormula := by
  intro p
  obtain ⟨hhigh, hlow⟩ := extractLsb'_grayPackPair p
  exact ⟨hhigh, hlow, rfl⟩

end

section
/-! Proofs of spec/42_toif_header.md: what TOIF_HDR answers to a header with a known magic, for both values of
STRICT_TRAILING, and the size test of R79. -/

namespace Sys2Proof.Machine

/-! ### The fields of a header (R75, R77) -/

/-- `le16` as the sum that `headerAnswer` writes. -/
theorem le16_eq_ofNat (a b : Byte) : le16 a b = BitVec.ofNat 16 (a.toNat + 2 ^ 8 * b.toNat) := by
  rw [← toNat_le16, BitVec.ofNat_toNat, BitVec.setWidth_eq]

/-- The `le32` of the length field counts the declared bytes. -/
theorem toNat_le32_lengthField (b : Nat → Byte) : (le32 (b 8) (b 9) (b 10) (b 11)).toNat = declaredLength b :=
  toNat_le32 ..

/-- The fields of a header whose format is `f`, as the model assembles them, are those of the answer. -/
theorem headerResponse_eq_headerAnswer {f : PixFmt} {b : Nat → Byte} (hf : fmtCode f = if b 3 = 0x66 then 0 else 1) :
    headerResponse f (le16 (b 4) (b 5)) (le16 (b 6) (b 7)) (le32 (b 8) (b 9) (b 10) (b 11)) = headerAnswer b := by
  rw [headerResponse, headerAnswer, ← hf, ← le16_eq_ofNat, ← le16_eq_ofNat, ← toNat_le32_lengthField,
    BitVec.ofNat_toNat, BitVec.setWidth_eq]

/-! ### The magic (R72) -/

/-- A known magic names the format that its fourth byte tells. -/
theorem exists_magicFmt_of_goodMagic {b : Nat → Byte} (hmagic : goodMagic b = true) :
    ∃ f, magicFmt (b 0) (b 1) (b 2) (b 3) = some f ∧ fmtCode f = if b 3 = 0x66 then 0 else 1 := by
  simp only [goodMagic, Bool.and_eq_true, Bool.or_eq_true, beq_iff_eq] at hmagic
  obtain ⟨⟨⟨h0, h1⟩, h2⟩, h3 | h3⟩ := hmagic
  · exact ⟨.rgb, magicFmt_eq_rgb_iff.2 (by rw [h0, h1, h2, h3]), by rw [h3]; rfl⟩
  · exact ⟨.gray, magicFmt_eq_gray_iff.2 (by rw [h0, h1, h2, h3]), by rw [h3]; rfl⟩

/-! ### The operation on supplied bytes (R78) -/

section
variable {s : State} {b : Nat → Byte} {blen : Nat} {f : PixFmt}

theorem readIn_of_inputIs {n i : Nat} (hin : s.inputIs n b) (hi : i < n) (hspace : i < Config.indexSpace) :
    s.readIn i = .ok (b i) :=
  readIn_eq_ok.2 ⟨hspace, hin i hi⟩

theorem supplies_of_inputIs {m n : Nat} (hin : s.inputIs n b) (hm : m ≤ n) : s.supplies m = true :=
  supplies_iff.2 fun i hi => Option.isSome_iff_exists.2 ⟨b i, hin i (hi.trans_le hm)⟩

/-- From the first four bytes on: a known magic leaves the header's own length and the fields to check. -/
theorem headerChecks_of_magicFmt (hin : s.inputIs (min blen 12) b) (h4 : 4 ≤ blen)
    (hf : magicFmt (b 0) (b 1) (b 2) (b 3) = some f) (strict : Bool) :
    headerChecks strict blen s =
      if blen < Config.hdrBytes then .ok (s.raise .lengthMismatch) else headerFields strict f blen s := by
  have hread : ∀ i < 4, s.readIn i = .ok (b i) := fun i hi =>
    readIn_of_inputIs hin (by omega) (hi.trans (by decide))
  rw [headerChecks, if_neg (Nat.not_lt.2 h4)]
  simp only [hread 0 (by decide), hread 1 (by decide), hread 2 (by decide), hread 3 (by decide), ok_bind, hf]

/-- The fields are read from the header's bytes, and the length check alone decides between the answer and the error. -/
theorem headerFields_of_inputIs (hin : s.inputIs 12 b) (hf : fmtCode f = if b 3 = 0x66 then 0 else 1)
    (strict : Bool) (blen : Nat) :
    headerFields strict f blen s = .ok
      (if lengthRejected strict (blen - Config.hdrBytes) (declaredLength b) then s.raise .lengthMismatch
        else { s with response := some (headerAnswer b) }) := by
  have hread : ∀ i < 12, s.readIn i = .ok (b i) := fun i hi => readIn_of_inputIs hin hi (hi.trans (by decide))
  simp only [headerFields, hread 4 (by decide), hread 5 (by decide), hread 6 (by decide), hread 7 (by decide),
    hread 8 (by decide), hread 9 (by decide), hread 10 (by decide), hread 11 (by decide), ok_bind,
    toNat_le32_lengthField, State.doneHeader, headerResponse_eq_headerAnswer hf]

/-- A header of 12 bytes with a known magic is answered, or raises LengthMismatchError where the length check rejects
what follows it (R76, R77). -/
theorem toifHdr_of_goodMagic (hin : s.inputIs 12 b) (hmagic : goodMagic b = true) (hlen : 12 ≤ blen) (strict : Bool) :
    toifHdr strict blen s = .next
      (if lengthRejected strict (blen - 12) (declaredLength b) then s.failedWith 4
        else { s with response := some (headerAnswer b) }) := by
  obtain ⟨f, hf, hcode⟩ := exists_magicFmt_of_goodMagic hmagic
  have hmin : min blen 12 = 12 := Nat.min_eq_right hlen
  rw [toifHdr, if_pos (supplies_of_inputIs hin hmin.le),
    headerChecks_of_magicFmt (hmin.symm ▸ hin) (by omega) hf, if_neg (Nat.not_lt.2 hlen),
    headerFields_of_inputIs hin hcode, finish_ok]
  rfl

end

/-! ### The length check (R76) -/

theorem lengthRejected_of_lt {avail clen : Nat} (h : avail < clen) (strict : Bool) :
    lengthRejected strict avail clen = true := by
  simp [lengthRejected, h]

/-- Bytes after the payload are rejected exactly under the strict reading. -/
theorem lengthRejected_of_gt {avail clen : Nat} (h : clen < avail) (strict : Bool) :
    lengthRejected strict avail clen = strict := by
  simp [lengthRejected, h, h.not_gt]

@[simp] theorem lengthRejected_self (strict : Bool) (n : Nat) : lengthRejected strict n n = false := by
  simp [lengthRejected]

/-! ### The size test (R79) -/

theorem sizeOk_rgb_iff {w h n : Nat} : sizeOk .rgb w h n = true ↔ n = 2 * w * h := by
  rw [Nat.mul_assoc]
  exact beq_iff_eq

theorem sizeOk_gray_iff {w h n : Nat} : sizeOk .gray w h n = true ↔ 2 * n = w * h := beq_iff_eq

/-- An odd number of gray pixels is twice no number of bytes. -/
theorem sizeOk_gray_of_odd {w h : Nat} (hw : w % 2 = 1) (hh : h % 2 = 1) (n : Nat) : sizeOk .gray w h n = false := by
  have hodd : w * h % 2 = 1 := Nat.odd_mul_odd hw hh
  rw [Bool.eq_false_iff, ne_eq, sizeOk_gray_iff]
  omega

end Sys2Proof.Machine

/-! ### The statements -/

open Sys2Proof Sys2Proof.Machine

/-- Settles O27: the bytes are all supplied, the magic names a format, and exactly the declared number of bytes passes
the length check. -/
theorem headerAccepted : Obligations.HeaderAccepted := by
  rintro x w h blen s b hin hmagic rfl
  rw [exec_toifHdr, toifHdr_of_goodMagic hin hmagic (Nat.le_add_right ..), Nat.add_sub_cancel_left,
    lengthRejected_self, if_neg Bool.false_ne_true]

/-- Settles O30: with a good header the answer turns on the length check alone, whose value each of the three
comparisons gives. -/
theorem lengthCheckBothReadings : Obligations.LengthCheckBothReadings := by
  refine ⟨exec_toifHdr, fun strict blen s b hin hmagic hlen => ?_⟩
  have hanswer := toifHdr_of_goodMagic hin hmagic hlen
  refine ⟨fun hfew => ?_, fun hmore => ?_, fun hmore => ?_, fun hexact => ?_⟩
  · rw [hanswer, if_pos (lengthRejected_of_lt hfew strict)]
  · rw [hanswer, if_pos (lengthRejected_of_gt hmore true)]
  · rw [hanswer, lengthRejected_of_gt hmore, if_neg Bool.false_ne_true]
  · rw [hanswer, hexact, lengthRejected_self, if_neg Bool.false_ne_true]

/-- Settles O17: each test by its equation; twice a number of bytes is never an odd number of pixels. -/
theorem sizeOkExact : Obligations.SizeOkExact := fun _ _ n =>
  ⟨sizeOk_rgb_iff, sizeOk_gray_iff, fun hw hh => sizeOk_gray_of_odd hw hh n⟩

end

section
/-! Proofs of spec/43_rgb565_decoder.md: the pixel of a word by its fields and over the two stream bytes, and RGB565_DEC
on a wrong and on the right length. -/

namespace Sys2Proof.Machine

/-! ### The pixel of an RGB565 word (R83) -/

/-- The fields of the word stand at the top of the channels, with zeros below. -/
theorem extractLsb'_rgb565Unpack (v : Word16) :
    (rgb565Unpack v).r.extractLsb' 3 5 = v.extractLsb' 11 5 ∧ (rgb565Unpack v).r.extractLsb' 0 3 = 0 ∧
    (rgb565Unpack v).g.extractLsb' 2 6 = v.extractLsb' 5 6 ∧ (rgb565Unpack v).g.extractLsb' 0 2 = 0 ∧
    (rgb565Unpack v).b.extractLsb' 3 5 = v.extractLsb' 0 5 ∧ (rgb565Unpack v).b.extractLsb' 0 3 = 0 := by
  obtain ⟨hr, hg, hb⟩ := toNat_rgb565Unpack v
  simp only [← BitVec.toNat_inj, BitVec.extractLsb'_toNat, Nat.shiftRight_eq_div_pow, hr, hg, hb,
    BitVec.ofNat_eq_ofNat, BitVec.toNat_zero]
  omega

theorem toNat_and_0x1F (b : Byte) : (b &&& 0x1F#8).toNat = b.toNat % 32 := Nat.and_two_pow_sub_one_eq_mod b.toNat 5

/-- The pixel over the two stream bytes: red and blue come from one byte each, green from both. -/
theorem rgb565Unpack_be16 (hi lo : Byte) :
    rgb565Unpack (be16 hi lo) =
      ⟨hi &&& 0xF8#8, ((hi &&& 0x07#8) <<< 5) ||| ((lo &&& 0xE0#8) >>> 3), (lo &&& 0x1F#8) <<< 3⟩ := by
  have hlo := lo.isLt
  obtain ⟨hr, hg, hb⟩ := toNat_rgb565Unpack (be16 hi lo)
  rw [toNat_be16] at hr hg hb
  have hgHigh : ((hi &&& 0x07#8) <<< 5).toNat = hi.toNat % 8 * 2 ^ 5 := by
    rw [BitVec.toNat_shiftLeft, toNat_and_7, Nat.shiftLeft_eq]
    omega
  have hgLow : ((lo &&& 0xE0#8) >>> 3).toNat = lo.toNat / 32 * 4 := by
    rw [BitVec.toNat_ushiftRight, toNat_and_0xE0, Nat.shiftRight_eq_div_pow]
    omega
  have hbShifted : ((lo &&& 0x1F#8) <<< 3).toNat = lo.toNat % 32 * 8 := by
    rw [BitVec.toNat_shiftLeft, toNat_and_0x1F, Nat.shiftLeft_eq]
    omega
  apply Rgb.eq_of_toNat_eq
  · rw [hr, toNat_and_0xF8]
    omega
  · rw [hg, toNat_or_of_dvd (k := 5) (by omega) (by omega), hgHigh, hgLow]
    omega
  · rw [hb, hbShifted]
    omega

/-! ### RGB565_DEC by the length of the payload (R84, R85) -/

theorem exec_rgb565Dec_of_ne {w h n : Nat} (hn : n ≠ 2 * w * h) (s : State) :
    exec (.rgb565Dec w h n) s = .next (s.raise .sizeMismatch) := by
  rw [exec_rgb565Dec, if_neg (mt sizeOk_rgb_iff.1 hn)]

theorem exec_rgb565Dec_of_eq {w h n : Nat} (hn : n = 2 * w * h) (s : State) :
    exec (.rgb565Dec w h n) s = runLanes rgb565DecLane (w * h) (3 * (w * h)) s := by
  rw [exec_rgb565Dec, if_pos (sizeOk_rgb_iff.2 hn)]

/-- RGB565_DEC completes on every stream of the right length. -/
theorem exec_rgb565Dec_completes {w h n : Nat} (hwf : (Instr.rgb565Dec w h n).wf = true) (hn : n = 2 * w * h)
    {s : State} (hin : s.hasInput n) (hroom : 3 * (w * h) ≤ s.outRoom) :
    ∃ t, exec (.rgb565Dec w h n) s = .next t := by
  obtain ⟨hw, hh, -⟩ := fitsPort_iff.1 hwf
  have hp : 3 * (w * h) < Config.indexSpace := rgbBytes_lt hw hh
  rw [exec_rgb565Dec_of_eq hn]
  rw [Nat.mul_assoc] at hn
  exact runLanes_completes .of_rgb565DecLane (fun k u hk hin' hroom' =>
    exists_ok_of_stopsFor (rgb565DecLane_stops (by omega)) (fun i hi => hin' i (by omega)) (by omega)) _ hin hroom

/-- The pixel of word `k` stands at `3k` of `OUT`, red first. -/
theorem read_of_exec_rgb565Dec {w h n : Nat} {s t : State} (hn : n = 2 * w * h)
    (hex : exec (.rgb565Dec w h n) s = .next t) {k : Nat} (hk : k < w * h) {hi lo : Byte}
    (hhi : s.inBuf.read (2 * k) = some hi) (hlo : s.inBuf.read (2 * k + 1) = some lo) :
    t.outBuf.read (3 * k) = some (rgb565Unpack (be16 hi lo)).r ∧
    t.outBuf.read (3 * k + 1) = some (rgb565Unpack (be16 hi lo)).g ∧
    t.outBuf.read (3 * k + 2) = some (rgb565Unpack (be16 hi lo)).b := by
  rw [exec_rgb565Dec_of_eq hn] at hex
  obtain ⟨t', hloop, rfl⟩ := runLanes_eq_next.1 hex
  obtain ⟨u, v, hround, hin, hout⟩ := forLanes_round (pos := (3 * ·)) StoresWithin.of_rgb565DecLane hloop hk
  obtain ⟨hi', lo', hhi', hlo', -, -, rfl⟩ := rgb565DecLane_eq_ok.1 hround
  rw [hin] at hhi' hlo'
  cases hhi.symm.trans hhi'
  cases hlo.symm.trans hlo'
  rw [State.done_outBuf, hout (3 * k) (by omega), hout (3 * k + 1) (by omega), hout (3 * k + 2) (by omega)]
  simp

end Sys2Proof.Machine

/-! ### The statements -/

open Sys2Proof Sys2Proof.Machine

/-- Settles O23: another length fails the size test before the loop; on the right one every round finds its input and
its room, what round `k` stored stays at `3k` to `3k + 2`, and no round stores at `3 w h` or above. -/
theorem rgb565DecResult : Obligations.Rgb565DecResult := by
  intro w h n s hwf
  rw [← Nat.mul_assoc 2 w h]
  refine ⟨rfl, fun hn => exec_rgb565Dec_of_ne hn s, fun hn hin hroom => ?_⟩
  obtain ⟨t, hex⟩ := exec_rgb565Dec_completes hwf hn hin hroom
  obtain ⟨u, hstores, rfl⟩ := stores_of_runLanes (pos := (3 * ·)) StoresWithin.of_rgb565DecLane
    ((exec_rgb565Dec_of_eq hn s).symm.trans hex)
  have hcount : 3 * (w * h) < 2 ^ 34 := by
    simpa [roomNeeded, sizeOk_rgb_iff.2 hn] using (counts_lt_of_wf hwf).2
  exact ⟨_, hex, u.endsOk_done hcount, fun k hk hi lo hhi hlo => read_of_exec_rgb565Dec hn hex hk hhi hlo,
    fun a ha => hstores.read a (.inr ha), (ended_of_exec hex).sameButOut⟩

/-- Settles O24: the size test alone decides the error; a stream of the right length runs the loop, which raises
nothing. -/
theorem rgb565DecSizeMismatch : Obligations.Rgb565DecSizeMismatch := by
  refine fun w h n s => ⟨fun hn => exec_rgb565Dec_of_ne hn s, fun hn t r hex hr => ?_⟩
  rw [exec_rgb565Dec_of_eq hn] at hex
  exact status_of_runLanes hex hr

/-- Settles O9: the fields from the values of the channels, the formulas as the model writes them, and the forms over
the stream bytes. -/
theorem rgb565UnpackFormula : Obligations.Rgb565UnpackFormula := by
  refine ⟨fun v => ?_, rgb565Unpack_be16⟩
  obtain ⟨hr, hrZero, hg, hgZero, hb, hbZero⟩ := extractLsb'_rgb565Unpack v
  exact ⟨hr, hrZero, hg, hgZero, hb, hbZero, rfl, rfl, rfl⟩

end

section
/-! Proofs of spec/44_gray_unpacker.md: the nibbles of the pair of a byte, and GRAY_UNPACK on a wrong and on the right
length. -/

namespace Sys2Proof.Machine

/-! ### The nibbles of the pair of a packed byte (R89) -/

/-- The nibbles of the byte stand at the top of the luminance values, with zeros below. -/
theorem extractLsb'_grayUnpackByte (b : Byte) :
    (grayUnpackByte b).l1.extractLsb' 4 4 = b.extractLsb' 4 4 ∧ (grayUnpackByte b).l1.extractLsb' 0 4 = 0 ∧
    (grayUnpackByte b).l2.extractLsb' 4 4 = b.extractLsb' 0 4 ∧ (grayUnpackByte b).l2.extractLsb' 0 4 = 0 := by
  obtain ⟨h1, h2⟩ := toNat_grayUnpackByte b
  simp only [← BitVec.toNat_inj, BitVec.extractLsb'_toNat, Nat.shiftRight_eq_div_pow, h1, h2, BitVec.ofNat_eq_ofNat,
    BitVec.toNat_zero]
  omega

/-! ### GRAY_UNPACK by the length of the payload (R90, R91) -/

theorem exec_grayUnpack_of_ne {w h n : Nat} (hn : 2 * n ≠ w * h) (s : State) :
    exec (.grayUnpack w h n) s = .next (s.raise .sizeMismatch) := by
  rw [exec_grayUnpack, if_neg (mt sizeOk_gray_iff.1 hn)]

theorem exec_grayUnpack_of_eq {w h n : Nat} (hn : 2 * n = w * h) (s : State) :
    exec (.grayUnpack w h n) s = runLanes grayUnpackLane n (w * h) s := by
  rw [exec_grayUnpack, if_pos (sizeOk_gray_iff.2 hn), hn]

/-- GRAY_UNPACK completes on every stream of the right length, whatever the parity of the width. -/
theorem exec_grayUnpack_completes {w h n : Nat} (hwf : (Instr.grayUnpack w h n).wf = true) (hn : 2 * n = w * h)
    {s : State} (hin : s.hasInput n) (hroom : w * h ≤ s.outRoom) : ∃ t, exec (.grayUnpack w h n) s = .next t := by
  obtain ⟨hw, hh, -⟩ := fitsPort_iff.1 hwf
  have hp : 3 * (w * h) < Config.indexSpace := rgbBytes_lt hw hh
  rw [exec_grayUnpack_of_eq hn]
  exact runLanes_completes .of_grayUnpackLane (fun j u hj hin' hroom' =>
    exists_ok_of_stopsFor (grayUnpackLane_stops (by omega)) (fun i hi => hin' i (by omega)) (by omega)) _ hin hroom

/-- The luminance values of byte `j` stand at `2j` of `OUT`, that of the top nibble first. -/
theorem read_of_exec_grayUnpack {w h n : Nat} {s t : State} (hn : 2 * n = w * h)
    (hex : exec (.grayUnpack w h n) s = .next t) {j : Nat} (hj : j < n) {b : Byte} (hb : s.inBuf.read j = some b) :
    t.outBuf.read (2 * j) = some (grayUnpackByte b).l1 ∧ t.outBuf.read (2 * j + 1) = some (grayUnpackByte b).l2 := by
  rw [exec_grayUnpack_of_eq hn] at hex
  obtain ⟨t', hloop, rfl⟩ := runLanes_eq_next.1 hex
  obtain ⟨u, v, hround, hin, hout⟩ := forLanes_round (pos := (2 * ·)) StoresWithin.of_grayUnpackLane hloop hj
  obtain ⟨b', hb', -, -, rfl⟩ := grayUnpackLane_eq_ok.1 hround
  rw [hin] at hb'
  cases hb.symm.trans hb'
  rw [State.done_outBuf, hout (2 * j) (by omega), hout (2 * j + 1) (by omega)]
  simp

end Sys2Proof.Machine

/-! ### The statements -/

open Sys2Proof Sys2Proof.Machine

/-- Settles O25: another length fails the size test before the loop; on the right one every round finds its input and
its room, what round `j` stored stays at `2j` and `2j + 1`, and no round stores at `w h` or above, since the `n` rounds
end at `2n`. -/
theorem grayUnpackResult : Obligations.GrayUnpackResult := by
  intro w h n s hwf
  refine ⟨rfl, fun hn => exec_grayUnpack_of_ne hn s, fun hn hin hroom => ?_⟩
  obtain ⟨t, hex⟩ := exec_grayUnpack_completes hwf hn hin hroom
  obtain ⟨u, hstores, rfl⟩ := stores_of_runLanes (pos := (2 * ·)) StoresWithin.of_grayUnpackLane
    ((exec_grayUnpack_of_eq hn s).symm.trans hex)
  have hcount : w * h < 2 ^ 34 := by simpa [roomNeeded, sizeOk_gray_iff.2 hn] using (counts_lt_of_wf hwf).2
  exact ⟨_, hex, u.endsOk_done hcount, fun j hj b hb => read_of_exec_grayUnpack hn hex hj hb,
    fun a ha => hstores.read a (.inr (hn.trans_le ha)), (ended_of_exec hex).sameButOut⟩

/-- Settles O26: the size test alone decides the error, and the parity of the width has no part in it; a stream of the
right length runs the loop, which raises nothing. -/
theorem grayUnpackSizeMismatch : Obligations.GrayUnpackSizeMismatch := by
  refine fun w h n s => ⟨fun hn => exec_grayUnpack_of_ne hn s, fun hn t r hex hr => ?_⟩
  rw [exec_grayUnpack_of_eq hn] at hex
  exact status_of_runLanes hex hr

/-- Settles O11: the nibbles from the values of the pair, and the formulas as the model writes them. -/
theorem grayUnpackFormula : Obligations.GrayUnpackFormula := by
  intro b
  obtain ⟨hhigh, hhighZero, hlow, hlowZero⟩ := extractLsb'_grayUnpackByte b
  exact ⟨hhigh, hhighZero, hlow, hlowZero, rfl⟩

end

section
/-! Proofs of spec/60_exceptions.md: which command raises UnsupportedFormatError, which error a supplied header raises,
and that an error leaves nothing but its response. -/

namespace Sys2Proof.Machine

/-! ### UnsupportedFormatError (R96) -/

/-- The one row of the table that raises UnsupportedFormatError is that of the words `001f`. -/
theorem operandError_eq_unsupportedFormat_iff_of_row {c : Command} {i : Instr} (hrow : DispatchRow c i) :
    operandError i = some .unsupportedFormat ↔ c.cmd = 0b0010#4 ∨ c.cmd = 0b0011#4 := by
  cases hrow with
  | packUnsupported f w h len | reservedUnpackFmt f w h len =>
    rcases BitVec.eq_zero_or_eq_one f with rfl | rfl <;> simp [operandError]
  | rgb565Enc w h len | grayPack w h len | rgb565Dec w h len | grayUnpack w h len => simp [operandError]
  | toifHdr x w h len | reservedOp3 x w h len =>
    simp only [operandError]
    revert x
    decide

/-! ### The errors of a header (R98, R99) -/

/-- The error TOIF_HDR raises on a blob of `blen` bytes that starts with `b 0 .. b 11`, as far as the blob goes: the
magic is judged before the lengths (R78). `exec_toifHdr_of_inputIs` ties it to the operation. -/
def headerError (blen : Nat) (b : Nat → Byte) : Option BlockError :=
  if blen < 4 ∨ goodMagic b = false then some .badMagic
  else if blen < 12 ∨ blen - 12 ≠ declaredLength b then some .lengthMismatch
  else none

theorem headerError_eq_badMagic_iff {blen : Nat} {b : Nat → Byte} :
    headerError blen b = some .badMagic ↔ blen < 4 ∨ goodMagic b = false := by
  unfold headerError
  split
  case isTrue hmagic => simp [hmagic]
  case isFalse hmagic => split <;> simp [hmagic]

theorem headerError_eq_lengthMismatch_iff {blen : Nat} {b : Nat → Byte} :
    headerError blen b = some .lengthMismatch ↔
      4 ≤ blen ∧ goodMagic b = true ∧ (blen < 12 ∨ blen - 12 ≠ declaredLength b) := by
  rw [← and_assoc, ← Nat.not_lt, ← Bool.not_eq_false, ← not_or]
  unfold headerError
  split
  case isTrue hmagic => simp [hmagic]
  case isFalse hmagic => split <;> simp [*]

/-- The strict reading rejects every length but the declared one (R76, D8). -/
theorem lengthRejected_true_iff {avail clen : Nat} : lengthRejected true avail clen = true ↔ avail ≠ clen := by
  simp [lengthRejected]

/-- Only the two known magics name a format. -/
theorem goodMagic_of_magicFmt {b : Nat → Byte} {f : PixFmt} (hf : magicFmt (b 0) (b 1) (b 2) (b 3) = some f) :
    goodMagic b = true := by
  cases f with
  | rgb =>
    have hbytes := magicFmt_eq_rgb_iff.1 hf
    simp_all [goodMagic]
  | gray =>
    have hbytes := magicFmt_eq_gray_iff.1 hf
    simp_all [goodMagic]

theorem magicFmt_of_not_goodMagic {b : Nat → Byte} (hmagic : goodMagic b = false) :
    magicFmt (b 0) (b 1) (b 2) (b 3) = none :=
  Option.eq_none_iff_forall_ne_some.2 fun _ hf => Bool.eq_false_iff.1 hmagic (goodMagic_of_magicFmt hf)

section
variable {s : State} {b : Nat → Byte} {blen : Nat} (hin : s.inputIs (min blen 12) b)
include hin

/-- A supplied blob is never refused: the checks decide the answer. -/
theorem toifHdr_of_inputIs (strict : Bool) : toifHdr strict blen s = finish (headerChecks strict blen s) := by
  rw [toifHdr, if_pos (supplies_of_inputIs hin le_rfl)]

/-- Fewer than four bytes, or four that are no known magic, are all that TOIF_HDR looks at. -/
theorem toifHdr_of_no_magic (hmagic : blen < 4 ∨ goodMagic b = false) (strict : Bool) :
    toifHdr strict blen s = .next (s.raise .badMagic) := by
  rw [toifHdr_of_inputIs hin, headerChecks]
  split
  case isTrue => rfl
  case isFalse h4 =>
    have hnone := magicFmt_of_not_goodMagic (hmagic.resolve_left h4)
    have hread : ∀ i < 4, s.readIn i = .ok (b i) := fun i hi =>
      readIn_of_inputIs hin (by omega) (hi.trans (by decide))
    simp only [hread 0 (by decide), hread 1 (by decide), hread 2 (by decide), hread 3 (by decide), ok_bind, hnone,
      finish_ok]

/-- A known magic on a header cut before its twelfth byte. -/
theorem toifHdr_of_cut_header (hmagic : goodMagic b = true) (h4 : 4 ≤ blen) (h12 : blen < 12) (strict : Bool) :
    toifHdr strict blen s = .next (s.raise .lengthMismatch) := by
  obtain ⟨f, hf, -⟩ := exists_magicFmt_of_goodMagic hmagic
  rw [toifHdr_of_inputIs hin, headerChecks_of_magicFmt hin h4 hf, if_pos h12, finish_ok]

/-- TOIF_HDR on a supplied blob: the response is that of the header's error, or the header's fields. -/
theorem exec_toifHdr_of_inputIs (x w h : Nat) :
    exec (.toifHdr x w h blen) s =
      .next { s with response := some ((headerError blen b).elim (headerAnswer b) errorResponse) } := by
  rw [exec_toifHdr, headerError]
  split
  case isTrue hmagic => exact toifHdr_of_no_magic hin hmagic _
  case isFalse hmagic =>
    obtain ⟨h4, hgood⟩ := not_or.1 hmagic
    rw [Nat.not_lt] at h4
    rw [Bool.not_eq_false] at hgood
    rcases Nat.lt_or_ge blen 12 with h12 | h12
    · rw [if_pos (.inl h12)]
      exact toifHdr_of_cut_header hin hgood h4 h12 _
    · rw [Nat.min_eq_right h12] at hin
      rw [toifHdr_of_goodMagic hin hgood h12, Config.strictTrailing]
      by_cases hlen : blen - 12 = declaredLength b
      · rw [hlen, lengthRejected_self, if_neg Bool.false_ne_true, if_neg (not_or.2 ⟨h12.not_gt, not_not.2 rfl⟩)]
        rfl
      · rw [if_pos (lengthRejected_true_iff.2 hlen), if_pos (.inr hlen)]
        rfl

/-- TOIF_HDR answers with an error exactly when that is the header's: no two errors share a code, and none has that of
`OK`. -/
theorem exec_toifHdr_eq_raise_iff (x w h : Nat) (e : BlockError) :
    exec (.toifHdr x w h blen) s = .next (s.raise e) ↔ headerError blen b = some e := by
  rw [exec_toifHdr_of_inputIs hin]
  constructor
  · intro hnext
    have hresponse : (headerError blen b).elim (headerAnswer b) errorResponse = errorResponse e :=
      Option.some_inj.1 (congrArg State.response (Host.Outcome.next.inj hnext))
    have hstatus := congrArg Response.status hresponse
    cases herr : headerError blen b with
    | none =>
      rw [herr] at hstatus
      exact absurd hstatus.symm e.code_ne_zero
    | some e' =>
      rw [herr] at hstatus
      rw [BlockError.code_injective hstatus]
  · intro herr
    rw [herr]
    rfl

end

/-! ### An error response (R104) -/

/-- An operation that ends with a status other than 0 has raised an error: the other two ends respond with `OK`. -/
theorem Ended.eq_failedWith {s t : State} {r : Response} (h : Ended s t) (hr : t.response = some r)
    (hstatus : r.status ≠ 0) : t = s.failedWith r.status := by
  cases h with
  | raised e he =>
    cases hr
    rfl
  | stored hu n | header f w h clen =>
    cases hr
    exact absurd rfl hstatus

/-! ### The idle block (R110) -/

theorem step_of_no_command {s : State} (hl : s.resetLine = .released) (hc : s.command = none) : step s = .next s := by
  simp [step, stepWith, hl, hc]

end Sys2Proof.Machine

/-! ### The statements -/

open Sys2Proof Sys2Proof.Machine

/-- Settles O22: the operation does nothing but raise; over all commands the status is 1 where the operands raise the
error, which the table does in one row of two words. -/
theorem unsupportedFormatRaised : Obligations.UnsupportedFormatRaised := by
  refine ⟨fun f w h len s => exec_of_operandError (i := .packUnsupported f w h len) rfl s, fun c s t r hex hr => ?_⟩
  have hstatus : r.status = 1 ↔ operandError (decode c) = some .unsupportedFormat :=
    status_eq_code_iff hex hr (e := .unsupportedFormat) nofun nofun
  exact hstatus.trans (operandError_eq_unsupportedFormat_iff_of_row (DispatchRow.row_decode c))

/-- Settles O28: code 3 is the answer exactly when the header's error is BadMagicError, which is judged first. -/
theorem headerBadMagic : Obligations.HeaderBadMagic := fun x w h _ _ _ hin =>
  (exec_toifHdr_eq_raise_iff hin x w h .badMagic).trans headerError_eq_badMagic_iff

/-- Settles O29: code 4 is the answer exactly when the header's error is LengthMismatchError, which a good magic leaves
to the lengths. -/
theorem headerLengthMismatch : Obligations.HeaderLengthMismatch := fun x w h _ _ _ hin =>
  (exec_toifHdr_eq_raise_iff hin x w h .lengthMismatch).trans headerError_eq_lengthMismatch_iff

/-- Settles O37: of the three ways an operation ends, only a raised error has a status other than 0. -/
theorem errorHasNoOtherEffect : Obligations.ErrorHasNoOtherEffect := fun _ _ _ _ hex hr hstatus =>
  (ended_of_exec hex).eq_failedWith hr hstatus

/-- Settles O48: the branch of the step without a command. -/
theorem idleStepChangesNothing : Obligations.IdleStepChangesNothing := fun _ hl hc => step_of_no_command hl hc

end

section
/-! Proofs of spec/70_reset_and_hazards.md: what each operation needs of `IN` and of `OUT`, why it is refused without,
the round trips of the pack and unpack operations, and the steps of reset and of a host that interferes. -/

namespace Sys2Proof.Machine

/-! ### Bytes taken from `IN` and put in `OUT` (R25) -/

/-- On the way from `s` to `t` the first `m` bytes of `IN` were there to read, and the first `n` bytes of `OUT` had room
and were stored. -/
structure Transferred (m n : Nat) (s t : State) : Prop where
  inBuf    : t.inBuf = s.inBuf
  outRoom  : t.outRoom = s.outRoom
  supplied : s.hasInput m
  room     : n ≤ s.outRoom
  stored   : ∀ a < n, (t.outBuf.read a).isSome

namespace Transferred

theorem refl (s : State) : Transferred 0 0 s s :=
  ⟨rfl, rfl, fun _ hi => absurd hi (Nat.not_lt_zero _), Nat.zero_le _, fun _ ha => absurd ha (Nat.not_lt_zero _)⟩

variable {m n : Nat} {s t : State}

/-- One more byte of `IN` is there. -/
theorem read (h : Transferred m n s t) {b : Byte} (hb : t.inBuf.read m = some b) : Transferred (m + 1) n s t where
  inBuf := h.inBuf
  outRoom := h.outRoom
  supplied i hi := by
    rcases Nat.lt_succ_iff_lt_or_eq.1 hi with hi | rfl
    · exact h.supplied i hi
    · rw [← h.inBuf, hb]
      rfl
  room := h.room
  stored := h.stored

/-- One more byte of `OUT` is stored. -/
theorem write (h : Transferred m n s t) (hroom : n < t.outRoom) (v : Byte) :
    Transferred m (n + 1) s { t with outBuf := t.outBuf.write n v } where
  inBuf := h.inBuf
  outRoom := h.outRoom
  supplied := h.supplied
  room := h.outRoom ▸ hroom
  stored a ha := by
    rcases Nat.lt_succ_iff_lt_or_eq.1 ha with ha | rfl
    · rw [Memory.read_write_other _ _ ha.ne]
      exact h.stored a ha
    · simp

/-- The response has no part in it. -/
theorem respond (h : Transferred m n s t) (r : Response) : Transferred m n s { t with response := some r } :=
  ⟨h.inBuf, h.outRoom, h.supplied, h.room, h.stored⟩

end Transferred

/-! ### What an operation lacks (R120, R121) -/

/-- The refusal `r` names what `s` lacks of `m` bytes of input and of room for `n` bytes of output. -/
def LacksFor (s : State) (m n : Nat) (r : Refusal) : Prop :=
  (r = .shortInput ∧ ¬ s.hasInput m) ∨ (r = .outTooSmall ∧ s.outRoom < n)

namespace LacksFor

variable {m n : Nat} {s t : State} {r : Refusal}

theorem of_stopsFor (h : StopsFor s (.refused r) m n) : LacksFor s m (n + 1) r := by
  rcases h with ⟨he, i, hi, hnone⟩ | ⟨he, hroom⟩
  · refine .inl ⟨Stop.refused.inj he, fun hall => ?_⟩
    have hsome := hall i hi
    rw [hnone] at hsome
    cases hsome
  · exact .inr ⟨Stop.refused.inj he, Nat.lt_succ_of_le hroom⟩

/-- What a later round lacks the operation lacks from its beginning. -/
theorem of_transferred {i j m' n' : Nat} (hst : Transferred i j s t) (h : LacksFor t m n r) (hm : m ≤ m')
    (hn : n ≤ n') : LacksFor s m' n' r := by
  rcases h with ⟨hr, hmiss⟩ | ⟨hr, hroom⟩
  · rw [State.hasInput, hst.inBuf] at hmiss
    exact .inl ⟨hr, fun hall => hmiss fun i hi => hall i (hi.trans_le hm)⟩
  · exact .inr ⟨hr, (hst.outRoom ▸ hroom).trans_le hn⟩

end LacksFor

/-! ### The loops by what a round takes and gives -/

/-- Round `k` of `body` takes the `a` bytes of `IN` from `a k` on and stores the `b` bytes of `OUT` from `b k` on: one
that runs has transferred them, one that is refused lacks one of them, and no byte of `IN` above them matters. -/
structure LaneCounts (body : Nat → State → Except Stop State) (a b : Nat) : Prop where
  transferred {k : Nat} {s t u : State} : Transferred (a * k) (b * k) s t → body k t = .ok u →
    Transferred (a * (k + 1)) (b * (k + 1)) s u
  lacks {k : Nat} {s : State} {r : Refusal} : a * (k + 1) ≤ Config.indexSpace → b * (k + 1) ≤ Config.indexSpace →
    body k s = .error (.refused r) → LacksFor s (a * (k + 1)) (b * (k + 1)) r
  ignores {k : Nat} {s t : State} {m : Memory} : (∀ i < a * (k + 1), m.read i = s.inBuf.read i) → body k s = .ok t →
    body k { s with inBuf := m } = .ok { t with inBuf := m }

theorem rgb565EncLane_counts : LaneCounts rgb565EncLane 3 2 where
  transferred hst h := by
    obtain ⟨r, g, b, hr, hg, hb, -, hroom, rfl⟩ := rgb565EncLane_eq_ok.1 h
    exact ((((hst.read hr).read hg).read hb).write (Nat.lt_of_succ_lt hroom) _).write hroom _
  lacks hin hout h := .of_stopsFor (rgb565EncLane_stops (by omega) h)
  ignores hm h := by
    obtain ⟨r, g, b, hr, hg, hb, hi, hroom, rfl⟩ := rgb565EncLane_eq_ok.1 h
    exact rgb565EncLane_eq_ok.2 ⟨r, g, b, (hm _ (by omega)).trans hr, (hm _ (by omega)).trans hg,
      (hm _ (by omega)).trans hb, hi, hroom, rfl⟩

theorem grayPackLane_counts : LaneCounts grayPackLane 2 1 where
  transferred {k} {s} {t} {u} hst h := by
    obtain ⟨l1, l2, h1, h2, -, hroom, rfl⟩ := grayPackLane_eq_ok.1 h
    rw [Nat.one_mul] at hst ⊢
    exact ((hst.read h1).read h2).write hroom _
  lacks {k} {s} {r} hin hout h := by
    rw [Nat.one_mul]
    exact .of_stopsFor (grayPackLane_stops (by omega) h)
  ignores hm h := by
    obtain ⟨l1, l2, h1, h2, hi, hroom, rfl⟩ := grayPackLane_eq_ok.1 h
    exact grayPackLane_eq_ok.2 ⟨l1, l2, (hm _ (by omega)).trans h1, (hm _ (by omega)).trans h2, hi, hroom, rfl⟩

theorem rgb565DecLane_counts : LaneCounts rgb565DecLane 2 3 where
  transferred hst h := by
    obtain ⟨hi, lo, hhi, hlo, -, hroom, rfl⟩ := rgb565DecLane_eq_ok.1 h
    exact ((((hst.read hhi).read hlo).write (by omega) _).write (Nat.lt_of_succ_lt hroom) _).write hroom _
  lacks hin hout h := .of_stopsFor (rgb565DecLane_stops (by omega) h)
  ignores hm h := by
    obtain ⟨hi, lo, hhi, hlo, hx, hroom, rfl⟩ := rgb565DecLane_eq_ok.1 h
    exact rgb565DecLane_eq_ok.2 ⟨hi, lo, (hm _ (by omega)).trans hhi, (hm _ (by omega)).trans hlo, hx, hroom, rfl⟩

theorem grayUnpackLane_counts : LaneCounts grayUnpackLane 1 2 where
  transferred {k} {s} {t} {u} hst h := by
    obtain ⟨b, hb, -, hroom, rfl⟩ := grayUnpackLane_eq_ok.1 h
    rw [Nat.one_mul] at hst ⊢
    exact ((hst.read hb).write (Nat.lt_of_succ_lt hroom) _).write hroom _
  lacks {k} {s} {r} hin hout h := by
    rw [Nat.one_mul]
    exact .of_stopsFor (grayUnpackLane_stops (by omega) h)
  ignores hm h := by
    obtain ⟨b, hb, hx, hroom, rfl⟩ := grayUnpackLane_eq_ok.1 h
    exact grayUnpackLane_eq_ok.2 ⟨b, (hm _ (by omega)).trans hb, hx, hroom, rfl⟩

/-- The last round of a loop runs after all the others. -/
theorem forLanes_succ_last (body : Nat → State → Except Stop State) (n : Nat) (s : State) :
    forLanes body 0 (n + 1) s = forLanes body 0 n s >>= body n := by
  have hlast : forLanes body n 1 = body n := funext fun u => bind_pure (body n u)
  rw [forLanes_add, Nat.zero_add, hlast]

/-- A loop stops at a round that stops, and the rounds before it have run. -/
theorem forLanes_eq_error {body : Nat → State → Except Stop State} {n : Nat} {s : State} {e : Stop}
    (h : forLanes body 0 n s = .error e) : ∃ k < n, ∃ u, forLanes body 0 k s = .ok u ∧ body k u = .error e := by
  induction n with
  | zero => cases h
  | succ n ih =>
    rw [forLanes_succ_last] at h
    rcases bind_eq_error.1 h with hbefore | ⟨u, hu, hstop⟩
    · obtain ⟨k, hk, hround⟩ := ih hbefore
      exact ⟨k, hk.trans (Nat.lt_succ_self n), hround⟩
    · exact ⟨n, Nat.lt_succ_self n, u, hu, hstop⟩

/-- An operation that is refused is refused by its loop. -/
theorem forLanes_of_runLanes_refused {body : Nat → State → Except Stop State} {n count : Nat} {s : State} {r : Refusal}
    (h : runLanes body n count s = .refused r) : forLanes body 0 n s = .error (.refused r) := by
  unfold runLanes at h
  cases hloop : forLanes body 0 n s with
  | ok u =>
    rw [hloop] at h
    cases h
  | error e =>
    rw [hloop] at h
    cases e <;> cases h
    rfl

section
variable {body : Nat → State → Except Stop State} {a b : Nat} (hbody : LaneCounts body a b)
include hbody

theorem Transferred.of_forLanes {n : Nat} {s t : State} (h : forLanes body 0 n s = .ok t) :
    Transferred (a * n) (b * n) s t := by
  have hloop := forLanes_keeps (fun k u => Transferred (a * k) (b * k) s u)
    (fun _ _ _ hu hs => hbody.transferred hs hu) h (refl s)
  rwa [Nat.zero_add] at hloop

theorem Transferred.of_runLanes {n count : Nat} {s t : State} (h : runLanes body n count s = .next t) :
    Transferred (a * n) (b * n) s t := by
  obtain ⟨u, hu, rfl⟩ := runLanes_eq_next.1 h
  exact (of_forLanes hbody hu).respond (okResponse count)

/-- The round that is refused sees the `IN` and the room of the beginning. -/
theorem lacksFor_of_runLanes {n count : Nat} {s : State} {r : Refusal} (hin : a * n ≤ Config.indexSpace)
    (hout : b * n ≤ Config.indexSpace) (h : runLanes body n count s = .refused r) : LacksFor s (a * n) (b * n) r := by
  obtain ⟨k, hk, u, hu, hstop⟩ := forLanes_eq_error (forLanes_of_runLanes_refused h)
  have ha : a * (k + 1) ≤ a * n := Nat.mul_le_mul_left a hk
  have hb : b * (k + 1) ≤ b * n := Nat.mul_le_mul_left b hk
  exact .of_transferred (.of_forLanes hbody hu) (hbody.lacks (ha.trans hin) (hb.trans hout) hstop) ha hb

/-- The loop runs alike on any `IN` with the same bytes below those its rounds take. -/
theorem forLanes_ignores {m : Memory} {n : Nat} {s t : State} (hm : ∀ i < a * n, m.read i = s.inBuf.read i)
    (h : forLanes body 0 n s = .ok t) : forLanes body 0 n { s with inBuf := m } = .ok { t with inBuf := m } := by
  induction n generalizing t with
  | zero =>
    cases h
    rfl
  | succ n ih =>
    rw [forLanes_succ_last, bind_eq_ok] at h ⊢
    obtain ⟨u, hu, hlast⟩ := h
    have hin := (Transferred.of_forLanes hbody hu).inBuf
    exact ⟨_, ih (fun i hi => hm i (hi.trans_le (Nat.mul_le_mul_left a n.le_succ))) hu,
      hbody.ignores (fun i hi => hin ▸ hm i hi) hlast⟩

theorem runLanes_ignores {m : Memory} {n count : Nat} {s t : State} (hm : ∀ i < a * n, m.read i = s.inBuf.read i)
    (h : runLanes body n count s = .next t) :
    runLanes body n count { s with inBuf := m } = .next { t with inBuf := m } := by
  obtain ⟨u, hu, rfl⟩ := runLanes_eq_next.1 h
  exact runLanes_eq_next.2 ⟨_, forLanes_ignores hbody hm hu, rfl⟩

end

/-! ### The bytes an operation needs, by its operands -/

theorem roomNeeded_rgb565Dec {w h n : Nat} (hn : n = 2 * w * h) : roomNeeded (.rgb565Dec w h n) = 3 * (w * h) :=
  if_pos (sizeOk_rgb_iff.2 hn)

theorem roomNeeded_grayPack {w : Nat} (hw : w % 2 = 0) (h len : Nat) : roomNeeded (.grayPack w h len) = w * h / 2 :=
  if_neg (by simp [oddWidth, hw])

theorem roomNeeded_grayUnpack {w h n : Nat} (hn : 2 * n = w * h) : roomNeeded (.grayUnpack w h n) = w * h :=
  if_pos (sizeOk_gray_iff.2 hn)

/-- A bitmap of even width is a whole number of pairs (R64). -/
theorem two_mul_pairs {w : Nat} (hw : w % 2 = 0) (h : Nat) : 2 * (w * h / 2) = w * h := by
  have hpairs : w * h % 2 = 0 := by rw [Nat.mul_mod, hw, Nat.zero_mul, Nat.zero_mod]
  omega

/-! ### The four ways an operation can go -/

/-- How an instruction acts in every state, with the bytes it needs: it raises an error from its operands alone, runs a
loop that takes and stores just those bytes, is TOIF_HDR, or has no meaning. -/
inductive OpForm : Instr → Prop
  | raises {i : Instr} (e : BlockError) (hin : bytesNeeded i = 0) (hout : roomNeeded i = 0)
      (hex : ∀ s, exec i s = .next (s.raise e)) : OpForm i
  | loop {i : Instr} {body : Nat → State → Except Stop State} {a b : Nat} (hbody : LaneCounts body a b) (n : Nat)
      (hin : bytesNeeded i = a * n) (hout : roomNeeded i = b * n)
      (hex : ∀ s, exec i s = runLanes body n (roomNeeded i) s) : OpForm i
  | header (x w h blen : Nat) : OpForm (.toifHdr x w h blen)
  | reserved {i : Instr} (hi : Instr.isReserved i = true) : OpForm i

/-- Every instruction has one of the forms. -/
theorem opForm (i : Instr) : OpForm i := by
  cases i with
  | rgb565Enc w h len => exact .loop rgb565EncLane_counts (w * h) rfl rfl (exec_rgb565Enc w h len)
  | grayPack w h len =>
    rcases Nat.mod_two_eq_zero_or_one w with hw | hw
    · have hodd : oddWidth w = false := by simp [oddWidth, hw]
      have hroom := roomNeeded_grayPack hw h len
      refine .loop grayPackLane_counts (w * h / 2) ?_ (hroom.trans (Nat.one_mul _).symm)
        (hroom ▸ exec_grayPack_of_even hw h len)
      rw [two_mul_pairs hw, bytesNeeded, hodd, if_neg Bool.false_ne_true]
    · have hodd : oddWidth w = true := by simp [oddWidth, hw]
      exact .raises .invalidDimensions (if_pos hodd) (if_pos hodd) (exec_grayPack_of_odd hw h len)
  | packUnsupported f w h len => exact .raises .unsupportedFormat rfl rfl fun _ => rfl
  | rgb565Dec w h n =>
    by_cases hsize : sizeOk .rgb w h n = true
    · have hn := sizeOk_rgb_iff.1 hsize
      have hroom := roomNeeded_rgb565Dec hn
      refine .loop rgb565DecLane_counts (w * h) ?_ hroom (hroom ▸ exec_rgb565Dec_of_eq hn)
      rw [bytesNeeded, if_pos hsize, hn, Nat.mul_assoc]
    · exact .raises .sizeMismatch (if_neg hsize) (if_neg hsize) (exec_rgb565Dec_of_ne (mt sizeOk_rgb_iff.2 hsize))
  | grayUnpack w h n =>
    by_cases hsize : sizeOk .gray w h n = true
    · have hn := sizeOk_gray_iff.1 hsize
      have hroom := roomNeeded_grayUnpack hn
      refine .loop grayUnpackLane_counts n ?_ (hroom.trans hn.symm) (hroom ▸ exec_grayUnpack_of_eq hn)
      rw [bytesNeeded, if_pos hsize, Nat.one_mul]
    · exact .raises .sizeMismatch (if_neg hsize) (if_neg hsize) (exec_grayUnpack_of_ne (mt sizeOk_gray_iff.2 hsize))
  | toifHdr x w h blen => exact .header x w h blen
  | reservedUnpackFmt f w h len | reservedOp3 f w h len => exact .reserved rfl

/-- Supplied bytes are the values of some function. -/
theorem exists_inputIs_of_supplies {s : State} {n : Nat} (h : s.supplies n = true) : ∃ b, s.inputIs n b := by
  refine ⟨fun i => (s.inBuf.read i).getD 0, fun i hi => ?_⟩
  obtain ⟨v, hv⟩ := Option.isSome_iff_exists.1 (supplies_iff.1 h i hi)
  simp [hv]

/-- The blob of TOIF_HDR is supplied as far as it may be read, or the operation is refused as shortInput. -/
theorem exec_toifHdr_cases (x w h blen : Nat) (s : State) :
    (∃ b, s.inputIs (min blen 12) b) ∨
      (¬ s.hasInput (min blen 12) ∧ exec (.toifHdr x w h blen) s = .refused .shortInput) := by
  by_cases hall : s.supplies (min blen 12) = true
  · exact .inl (exists_inputIs_of_supplies hall)
  · exact .inr ⟨mt supplies_iff.2 hall, if_neg hall⟩

/-- An operation that completes has found every byte it needs, in `IN` and in `OUT`. -/
theorem transferred_of_exec {i : Instr} {s t : State} (hex : exec i s = .next t) :
    Transferred (bytesNeeded i) (roomNeeded i) s t := by
  cases opForm i with
  | raises e hin hout hraise =>
    cases (hraise s).symm.trans hex
    rw [hin, hout]
    exact (Transferred.refl s).respond _
  | loop hbody n hin hout hloop =>
    rw [hin, hout]
    exact .of_runLanes hbody ((hloop s).symm.trans hex)
  | header x w h blen =>
    rcases exec_toifHdr_cases x w h blen s with ⟨b, hb⟩ | ⟨-, href⟩
    · cases (exec_toifHdr_of_inputIs hb x w h).symm.trans hex
      exact ⟨rfl, rfl, fun i hi => Option.isSome_of_eq_some (hb i hi), Nat.zero_le _, nofun⟩
    · cases href.symm.trans hex
  | reserved hi => cases (exec_of_isReserved hi s).symm.trans hex

/-- An instruction that has a meaning is refused by the name of what it lacks, of the bytes it needs. -/
theorem lacksFor_of_exec {i : Instr} (hwf : i.wf = true) (hi : Instr.isReserved i = false) {s : State} {r : Refusal}
    (hex : exec i s = .refused r) : LacksFor s (bytesNeeded i) (roomNeeded i) r := by
  obtain ⟨hbytes, hroom⟩ := counts_lt_of_wf hwf
  cases opForm i with
  | raises e hin hout hraise => cases (hraise s).symm.trans hex
  | loop hbody n hin hout hloop =>
    rw [hloop] at hex
    rw [hin] at hbytes ⊢
    rw [hout] at hroom ⊢
    exact lacksFor_of_runLanes hbody hbytes.le hroom.le hex
  | header x w h blen =>
    rcases exec_toifHdr_cases x w h blen s with ⟨b, hb⟩ | ⟨hmiss, href⟩
    · cases (exec_toifHdr_of_inputIs hb x w h).symm.trans hex
    · cases href.symm.trans hex
      exact .inl ⟨rfl, hmiss⟩
  | reserved hres => cases hi.symm.trans hres

/-- Another `IN` with the same bytes where the operation needs them gives the same result. -/
theorem exec_ignores {i : Instr} {s t : State} {m : Memory} (hm : ∀ a < bytesNeeded i, m.read a = s.inBuf.read a)
    (hex : exec i s = .next t) : exec i { s with inBuf := m } = .next { t with inBuf := m } := by
  cases opForm i with
  | raises e hin hout hraise =>
    cases (hraise s).symm.trans hex
    exact hraise _
  | loop hbody n hin hout hloop =>
    rw [hloop] at hex ⊢
    exact runLanes_ignores hbody (hin ▸ hm) hex
  | header x w h blen =>
    rcases exec_toifHdr_cases x w h blen s with ⟨b, hb⟩ | ⟨-, href⟩
    · cases (exec_toifHdr_of_inputIs hb x w h).symm.trans hex
      exact exec_toifHdr_of_inputIs (fun i hi => (hm i hi).trans (hb i hi)) x w h
    · cases href.symm.trans hex
  | reserved hi => cases (exec_of_isReserved hi s).symm.trans hex

/-- A reserved instruction needs nothing. -/
theorem needs_of_isReserved {i : Instr} (hi : Instr.isReserved i = true) : bytesNeeded i = 0 ∧ roomNeeded i = 0 := by
  cases i with
  | reservedUnpackFmt f w h len | reservedOp3 f w h len => exact ⟨rfl, rfl⟩
  | rgb565Enc w h len | grayPack w h len | packUnsupported f w h len | rgb565Dec w h len | grayUnpack w h len
  | toifHdr f w h len => cases hi

/-- An instruction that needs a byte has a meaning. -/
theorem isReserved_eq_false_of_needs {i : Instr} (h : bytesNeeded i ≠ 0 ∨ roomNeeded i ≠ 0) :
    Instr.isReserved i = false := by
  by_contra hi
  obtain ⟨hin, hout⟩ := needs_of_isReserved (Bool.eq_true_of_not_eq_false hi)
  exact h.elim (· hin) (· hout)

/-- A well-formed instruction that has a meaning completes with every byte it needs, or is refused by the name of what
it lacks. -/
theorem exec_cases {i : Instr} (hwf : i.wf = true) (hi : Instr.isReserved i = false) (s : State) :
    (∃ t, exec i s = .next t ∧ Transferred (bytesNeeded i) (roomNeeded i) s t) ∨
      ∃ r, exec i s = .refused r ∧ LacksFor s (bytesNeeded i) (roomNeeded i) r := by
  cases hex : exec i s with
  | next t => exact .inl ⟨t, rfl, transferred_of_exec hex⟩
  | fault f => exact absurd hex (exec_ne_fault hwf s f)
  | refused r => exact .inr ⟨r, rfl, lacksFor_of_exec hwf hi hex⟩

/-- An operation whose host keeps its obligations completes. -/
theorem exec_completes {i : Instr} (hwf : i.wf = true) {s : State} (hready : s.readyFor i) :
    ∃ t, exec i s = .next t := by
  obtain ⟨hi, hin, hroom⟩ := hready
  rcases exec_cases hwf hi s with ⟨t, hex, -⟩ | ⟨r, -, ⟨-, hmiss⟩ | ⟨-, hsmall⟩⟩
  · exact ⟨t, hex⟩
  · exact absurd hin hmiss
  · exact absurd hroom hsmall.not_ge

/-- However a transaction ends, its response is a legal one. -/
theorem Ended.exists_legal {s t : State} (h : Ended s t) : ∃ r, t.response = some r ∧ r.legal := by
  cases h with
  | raised e he => exact ⟨_, rfl, errorResponse_legal he⟩
  | stored hu n => exact ⟨_, rfl, okResponse_legal n⟩
  | header f w h clen => exact ⟨_, rfl, headerResponse_legal f w h clen⟩

/-! ### One operation on the output of another (R123) -/

/-- The stream of an RGB bitmap has a length that fits the port. -/
theorem rgb565Dec_wf {w h len : Nat} (hwf : (Instr.rgb565Enc w h len).wf = true) :
    (Instr.rgb565Dec w h (2 * (w * h))).wf = true := by
  obtain ⟨hw, hh, -⟩ := fitsPort_iff.1 hwf
  have hp := rgbBytes_lt hw hh
  exact fitsPort_iff.2 ⟨hw, hh, by omega⟩

/-- The stream of a gray bitmap has a length that fits the port. -/
theorem grayUnpack_wf {w h len : Nat} (hwf : (Instr.grayPack w h len).wf = true) :
    (Instr.grayUnpack w h (w * h / 2)).wf = true := by
  obtain ⟨hw, hh, -⟩ := fitsPort_iff.1 hwf
  have hp := rgbBytes_lt hw hh
  exact fitsPort_iff.2 ⟨hw, hh, by omega⟩

/-! ### The step under reset, and of a host that interferes (R113, R115, R119) -/

theorem step_of_asserted {s : State} (hl : s.resetLine = .asserted) : step s = .next s.underReset := by
  simp [step, stepWith, hl]

/-- Where reset cuts in, a presented command is a transaction that is abandoned. -/
theorem step_of_cutsIn {s : State} {c : Command} (hl : s.resetLine = .cutsIn) (hc : s.command = some c) :
    step s = s.abandon (s.transact exec c) := by
  simp [step, stepWith, hl, hc]

theorem transact_of_breach (run : Instr → State → Host.Outcome State Fault Refusal) (c : Command) {s : State}
    {b : HostBreach} (hb : s.hostBreach = some b) : s.transact run c = .refused (.hostInterferes b) := by
  simp [State.transact, hb]

end Sys2Proof.Machine

/-! ### The statements -/

open Sys2Proof Sys2Proof.Machine

/-- Settles O38: the bytes stored are those the operation needs room for, all of them were stored with room, and
`out_len` counts them. -/
theorem writesExactlyBelowOutLen : Obligations.WritesExactlyBelowOutLen := by
  intro i s t hwf hex
  rcases stores_of_exec hex with ⟨r, hr, rfl⟩ | ⟨u, hu, rfl⟩
  · have hnone : r.outLen.toNat = 0 := by rw [hr, BitVec.ofNat_eq_ofNat, BitVec.toNat_zero]
    exact ⟨r, rfl, hnone.trans_le (Nat.zero_le _), fun a ha => absurd (hnone ▸ ha) (Nat.not_lt_zero a),
      fun _ _ => rfl⟩
  · have hst := transferred_of_exec hex
    have hcount : (okResponse (roomNeeded i)).outLen.toNat = roomNeeded i := u.written_done (counts_lt_of_wf hwf).2
    refine ⟨okResponse (roomNeeded i), rfl, ?_⟩
    rw [hcount]
    exact ⟨hst.room, hst.stored, fun a ha => hu.read a (.inr ha)⟩

/-- Settles O40: the operation does not complete without the bytes it needs, and with room enough the refusal can only
name the input. -/
theorem shortInputRefused : Obligations.ShortInputRefused := by
  intro i s hwf hmiss hroom
  have hi : Instr.isReserved i = false :=
    isReserved_eq_false_of_needs (.inl fun h0 => hmiss fun a ha => absurd (h0 ▸ ha) (Nat.not_lt_zero a))
  rcases exec_cases hwf hi s with ⟨t, -, hst⟩ | ⟨r, hex, ⟨rfl, -⟩ | ⟨-, hsmall⟩⟩
  · exact absurd hst.supplied hmiss
  · exact hex
  · exact absurd hroom hsmall.not_ge

/-- Settles O41: the loops take only the bytes they need, TOIF_HDR answers from the bytes it is given, and an error from
the operands looks at none. -/
theorem bytesBeyondNeedHaveNoEffect : Obligations.BytesBeyondNeedHaveNoEffect := fun _ _ _ _ hm hex =>
  exec_ignores hm hex

/-- Settles O42: the operation does not complete without the room it needs, and with all its input the refusal can only
name the room. -/
theorem smallRoomRefused : Obligations.SmallRoomRefused := by
  intro i s hwf hin hsmall
  have hi : Instr.isReserved i = false := isReserved_eq_false_of_needs (.inr (Nat.ne_zero_of_lt hsmall))
  rcases exec_cases hwf hi s with ⟨t, -, hst⟩ | ⟨r, hex, ⟨-, hmiss⟩ | ⟨rfl, -⟩⟩
  · exact absurd hst.room hsmall.not_ge
  · exact absurd hin hmiss
  · exact hex

/-- Settles O43: the words of the stream are those of the pixels, and expanding a packed pixel clears its low bits. -/
theorem rgbPackThenUnpack : Obligations.RgbPackThenUnpack := by
  intro w h len s hwf hin hroom
  obtain ⟨t, ht, -, hwords, -⟩ := (rgb565EncResult w h len s hwf).2 hin (by omega)
  have hst : Transferred _ (2 * (w * h)) s t := transferred_of_exec ht
  obtain ⟨u, hu, hok, hpixels, -⟩ := (rgb565DecResult w h _ { t with inBuf := t.outBuf } (rgb565Dec_wf hwf)).2.2 rfl
    hst.stored (hst.outRoom ▸ hroom)
  refine ⟨t, u, ht, hu, hok, fun k hk r g b hr hg hb => ?_⟩
  obtain ⟨hhi, hlo⟩ := hwords k hk r g b hr hg hb
  have hpixel := hpixels k hk _ _ hhi hlo
  rwa [be16_hiByte_loByte, rgb565Unpack_rgb565Pack] at hpixel

/-- Settles O44: the pixels of the bitmap are those of the words, and packing an expanded word gives it back. -/
theorem rgbUnpackThenPack : Obligations.RgbUnpackThenPack := by
  intro w h len s hwf hin hroom
  obtain ⟨t, ht, -, hpixels, -⟩ := (rgb565DecResult w h _ s (rgb565Dec_wf hwf)).2.2 rfl hin hroom
  have hst := transferred_of_exec ht
  rw [roomNeeded_rgb565Dec (Nat.mul_assoc 2 w h).symm] at hst
  obtain ⟨u, hu, hok, hwords, -⟩ := (rgb565EncResult w h len { t with inBuf := t.outBuf } hwf).2 hst.stored
    (by rw [hst.outRoom]; omega)
  have hword : ∀ k < w * h, u.outBuf.read (2 * k) = s.inBuf.read (2 * k) ∧
      u.outBuf.read (2 * k + 1) = s.inBuf.read (2 * k + 1) := by
    intro k hk
    obtain ⟨hi, hhi⟩ := Option.isSome_iff_exists.1 (hin (2 * k) (by omega))
    obtain ⟨lo, hlo⟩ := Option.isSome_iff_exists.1 (hin (2 * k + 1) (by omega))
    obtain ⟨hr, hg, hb⟩ := hpixels k hk hi lo hhi hlo
    have hout := hwords k hk _ _ _ hr hg hb
    rwa [rgb565Pack_rgb565Unpack, hiByte_be16, loByte_be16, ← hhi, ← hlo] at hout
  refine ⟨t, u, ht, hu, hok, fun a ha => ?_⟩
  obtain ⟨k, rfl | rfl⟩ := Nat.even_or_odd' a
  · exact (hword k (by omega)).1
  · exact (hword k (by omega)).2

/-- Settles O45: the bytes of the stream are those of the pairs, and expanding a packed pair clears its low nibbles. -/
theorem grayPackThenUnpack : Obligations.GrayPackThenUnpack := by
  intro w h len s hwf hw hin hroom
  have hpairs := two_mul_pairs hw h
  obtain ⟨t, ht, -, hbytes, -⟩ := (grayPackResult w h len s hwf).2.2 hw hin (by omega)
  have hst := transferred_of_exec ht
  rw [roomNeeded_grayPack hw] at hst
  obtain ⟨u, hu, hok, hvalues, -⟩ := (grayUnpackResult w h _ { t with inBuf := t.outBuf } (grayUnpack_wf hwf)).2.2
    hpairs hst.stored (hst.outRoom ▸ hroom)
  have hpair : ∀ j < w * h / 2, ∀ l1 l2, s.inBuf.read (2 * j) = some l1 → s.inBuf.read (2 * j + 1) = some l2 →
      u.outBuf.read (2 * j) = some (l1 &&& 0xF0#8) ∧ u.outBuf.read (2 * j + 1) = some (l2 &&& 0xF0#8) := by
    intro j hj l1 l2 h1 h2
    have hout := hvalues j hj _ (hbytes j hj l1 l2 h1 h2)
    rwa [grayUnpackByte_grayPackPair] at hout
  refine ⟨t, u, ht, hu, hok, fun k hk l hl => ?_⟩
  obtain ⟨j, rfl | rfl⟩ := Nat.even_or_odd' k
  · obtain ⟨l2, h2⟩ := Option.isSome_iff_exists.1 (hin (2 * j + 1) (by omega))
    exact (hpair j (by omega) l l2 hl h2).1
  · obtain ⟨l1, h1⟩ := Option.isSome_iff_exists.1 (hin (2 * j) (by omega))
    exact (hpair j (by omega) l1 l h1 hl).2

/-- Settles O46: the pairs of the bitmap are those of the bytes, and packing an expanded byte gives it back. -/
theorem grayUnpackThenPack : Obligations.GrayUnpackThenPack := by
  intro w h len s hwf hw hin hroom
  have hpairs := two_mul_pairs hw h
  obtain ⟨t, ht, -, hvalues, -⟩ := (grayUnpackResult w h _ s (grayUnpack_wf hwf)).2.2 hpairs hin hroom
  have hst := transferred_of_exec ht
  rw [roomNeeded_grayUnpack hpairs] at hst
  obtain ⟨u, hu, hok, hbytes, -⟩ := (grayPackResult w h len { t with inBuf := t.outBuf } hwf).2.2 hw hst.stored
    (by rw [hst.outRoom]; omega)
  refine ⟨t, u, ht, hu, hok, fun a ha => ?_⟩
  obtain ⟨b, hb⟩ := Option.isSome_iff_exists.1 (hin a ha)
  obtain ⟨h1, h2⟩ := hvalues a ha b hb
  have hout := hbytes a ha _ _ h1 h2
  rwa [grayPackPair_grayUnpackByte, ← hb] at hout

/-- Settles O50: the abandoned transaction fills `OUT` with free bytes below the count the operation would have given,
and nothing else of it is kept. -/
theorem resetCutsTransaction : Obligations.ResetCutsTransaction := by
  intro s u c r hl hc hb hex hr
  have hwritten : u.written = r.outLen.toNat := by rw [State.written, hr]
  have hstep := (step_of_cutsIn hl hc).trans (abandon_eq_next.2 ⟨u, transact_eq_next.2 ⟨hb, hex⟩, rfl⟩)
  rw [hwritten] at hstep
  exact ⟨_, hstep, rfl, rfl, rfl, fun a ha => Memory.read_fillFree_lt _ _ ha,
    fun a ha => Memory.read_fillFree_ge _ _ ha, rfl, rfl, rfl, rfl⟩

/-- Settles O55: the operation completes because the host keeps its obligations; however it ends the response is legal,
and the frame of the operation leaves the emptied port and `IN`. -/
theorem acceptedTransactionResponds : Obligations.AcceptedTransactionResponds := by
  intro s c hl hc hb hready
  obtain ⟨t, hex⟩ := exec_completes (decode_wf c) (s := s.accept) hready
  obtain ⟨r, hr, hlegal⟩ := (ended_of_exec hex).exists_legal
  have hframe := (ended_of_exec hex).sameButOut
  exact ⟨t, r, (step_eq_next_of_command hl hc).2 ⟨hb, hex⟩, hr, hlegal, by rw [hframe]; rfl, by rw [hframe]; rfl⟩

/-- Settles O49: the step under reset only empties the response port. -/
theorem resetAcceptsNothing : Obligations.ResetAcceptsNothing := fun s hl =>
  ⟨s.underReset, step_of_asserted hl, rfl, rfl, rfl, by rw [State.underReset, ← hl]⟩

/-- Settles O51: the breach is looked at before the command is decoded. -/
theorem hostInterferenceRefused : Obligations.HostInterferenceRefused := fun _ c _ hl hc hb =>
  (step_of_command hl hc).trans (transact_of_breach exec c hb)

end
